-- ==== Sys2Proof/Word.lean ====
section
/-!
DEFINITION. The word types of the BVU, and nothing else: the 32-bit storage word (R5, R21), the 8-bit
character of the payload-out channel (R75), the 4-bit register number (R61, R62) and the 64-bit command
header (R61). Bit `k` of a word has weight `2^k` (R7), which is how `BitVec` numbers its bits.
-/
namespace Sys2Proof

/-- A storage word: 32 bits, unsigned (R5, R21). Also one item of the payload-in channel (R76). -/
abbrev Word := BitVec 32

/-- One character of the payload-out channel: an 8-bit ASCII code (R75). -/
abbrev Byte := BitVec 8

/-- A register number, the width of the fields `VD` and `VS` (R61). -/
abbrev RegNum := BitVec 4

/-- A command header `H` (R61). -/
abbrev Header := BitVec 64

end Sys2Proof
end

