-- ==== Sys2Proof/Config.lean ====
section
/-!
DEFINITION. What an implementation fixes (R6: `NVEC`, `CAP_WORDS`) and the free values: what the spec
leaves without a value although the machine goes on. The free values have no body, so a statement that
holds with them holds whatever they are.
-/
namespace Sys2Proof

/-- The two OPEN parameters of R6. `capWords = none` is "unbounded". -/
structure Params where
  nvec : Nat
  capWords : Option Nat
  deriving DecidableEq, Repr

/-- The ranges R6 gives: `NVEC` from 1 to 16, `CAP_WORDS` from 0 to `2^26` or unbounded. -/
def Params.legal (p : Params) : Bool :=
  decide (1 ≤ p.nvec ∧ p.nvec ≤ 16) &&
    (match p.capWords with
     | none => true
     | some c => decide (c ≤ 2 ^ 26))

/-- DESIGN CHOICE (log 1, unsafe): the parameters of `State.reset`. R6 leaves both open; this is the
legal choice under which no command is turned away for want of a register or of storage. -/
def Config.params : Params := { nvec := 16, capWords := none }

/-- FREE VALUE (log 4): what a 32-bit response field shows for a count of `2^32` or more. Only an
unbounded `CAP_WORDS` lets a count grow so far, and no rule states the field then (R71, R115). -/
opaque Config.wideCount : Nat → BitVec 32

/-- FREE VALUE (log 3): `length` of register `d` after the `k`-th time the reset input acts, which R34 calls
unspecified. -/
opaque Config.resetLength : (k d : Nat) → Nat

/-- FREE VALUE (log 3): `words` of register `d` after the `k`-th time the reset input acts, which R34 calls
unspecified ("the storage may hold any bits"). -/
opaque Config.resetWords : (k d : Nat) → List Word

end Sys2Proof
end

