-- ==== Sys2Proof/Machine/State.lean ====
section
/-!
DEFINITION. The state of the BVU as plain data: the register file (10_state.md R20 to R28), the command in
progress and the four channels (R76, R77, R231), the level of the reset input (R230), and two fields of the
model's own (the parameter `CAP_WORDS` of R6, and a counter that selects free values). There is no program
counter (R29), no flag (R30), no control register (R31) and no memory beside the registers' words (R42, R52).
-/
namespace Sys2Proof.Machine

/-- A vector register (R21). While `valid` is false, `length` and `words` have no meaning. `words` lists
word 0, the least significant, first (R41). All 32 bits of every word are kept, padding bits too (R26). -/
structure VReg where
  valid : Bool
  length : Nat
  words : List Word
  deriving DecidableEq, Repr

/-- The fixed fields of a response, as the response-out channel carries them (R71, R76). -/
structure Response where
  status : BitVec 4
  reason : BitVec 4
  vreg : RegNum
  data : BitVec 32
  info0 : BitVec 32
  info1 : BitVec 32
  tlen : BitVec 32
  deriving DecidableEq, Repr

/-- A command in progress (R77, R231): its header has been taken, and so far these payload items. -/
structure Pending where
  header : Header
  items : List Word
  deriving DecidableEq, Repr

/-- The state. Every channel is a queue, the oldest transfer first. -/
structure State where
  /-- `v[0]` to `v[NVEC-1]`; `NVEC` is the size of this list (R6, R20). -/
  regs : List VReg
  /-- The parameter `CAP_WORDS` of R6, `none` for unbounded. The MODEL's own field (log 1): R6 says it is
  not state, and nothing writes it. -/
  capWords : Option Nat
  /-- The level of the reset input (R230), driven by the host. -/
  resetIn : Bool
  /-- The command in progress, if any (R77, R231). -/
  inProgress : Option Pending
  /-- command-in: headers the host has sent and the BVU has not yet accepted (R76). -/
  commandIn : List Header
  /-- payload-in: items the host has sent and the BVU has not yet taken (R76, R237). -/
  payloadIn : List Word
  /-- response-out: responses the host has not yet taken (R76, R238). -/
  responseOut : List Response
  /-- payload-out: characters the host has not yet taken (R75, R76, R238). -/
  payloadOut : List Byte
  /-- How many times the reset input has acted: the MODEL's own counter, which selects the free values of
  log 3. -/
  resets : Nat
  deriving DecidableEq, Repr

/-- The reasons a run could stop with a fault. There are none: BA's errors and the spec's refusals are
responses after which the BVU is ready for the next command (R203, R215), and every wait of the BVU is a
state it stays in (R237, R238). Nothing raises a fault, so that is safe. -/
inductive Fault where
  deriving DecidableEq, Repr

/-- The reasons a step could be turned down. The spec's `Refused` is a response (R204), not one of these. -/
inductive Refusal where
  /-- Raised by an arm of `exec` whose instruction has no meaning yet. No arm is left that raises it. Safe:
  nothing can be proved of such a step. -/
  | notModelled (mnemonic : String)
  deriving DecidableEq, Repr

/-- An unconstructed register (R21, R34). That `length` is 0 and `words` empty is a DESIGN CHOICE (log 2,
unsafe): R34 leaves both unspecified, and no command can observe them (R232). -/
def VReg.unconstructed : VReg := { valid := false, length := 0, words := [] }

/-- The machine right after reset (R34, R231) under given parameters: every register unconstructed, no
command in progress, all four channels empty, the reset input released. -/
def State.resetWith (p : Params) : State :=
  { regs := List.replicate p.nvec VReg.unconstructed
    capWords := p.capWords
    resetIn := false
    inProgress := none
    commandIn := []
    payloadIn := []
    responseOut := []
    payloadOut := []
    resets := 0 }

/-- The machine right after reset, under the parameters of Config.lean (log 1). -/
def State.reset : State := State.resetWith Config.params

end Sys2Proof.Machine
end

