-- ==== Sys2Proof/Machine/Flags.lean ====
section
/-!
DEFINITION. The BVU has no flags (R30): what a command leaves to tell is its response. This file holds the
outcomes a command can have (R12, R200, R204), their code numbers (R73, R74) and the response that carries
each (R71, R72, R75, R201).
-/
namespace Sys2Proof.Machine

/-- BA's four error kinds (R200). -/
inductive ErrorKind where
  | invalidLength | indexOutOfRange | lengthMismatch | shiftOverflow
  deriving DecidableEq, Repr

/-- The seven refusal reasons (R74, R204). -/
inductive Reason where
  | notConstructed | badRegister | badRadix | badText | badOperand | capacity | reservedEncoding
  deriving DecidableEq, Repr

/-- What a command that ends `OK` returns (R60, R71): nothing, the receiver for chaining (R72), a bit, a
count, or a text. -/
inductive Result where
  | nothing
  | register (vd : RegNum)
  | bit (b : Bool)
  | count (n : Nat)
  | text (chars : List Byte)
  deriving DecidableEq, Repr

/-- The outcome of a command (R12): `OK` with a result, one of BA's errors with its two diagnostic values
(R201), or the spec's own refusal with its reason (R204). -/
inductive Reply where
  | ok (result : Result)
  | error (kind : ErrorKind) (info0 info1 : BitVec 32)
  | refused (reason : Reason)
  deriving DecidableEq, Repr

/-- `STATUS` of an error kind (R73, R200). -/
def ErrorKind.code : ErrorKind → BitVec 4
  | .invalidLength => 0x1
  | .indexOutOfRange => 0x2
  | .lengthMismatch => 0x3
  | .shiftOverflow => 0x4

/-- `REASON` of a refusal (R74). -/
def Reason.code : Reason → BitVec 4
  | .notConstructed => 0x1
  | .badRegister => 0x2
  | .badRadix => 0x3
  | .badText => 0x4
  | .badOperand => 0x5
  | .capacity => 0x6
  | .reservedEncoding => 0x7

/-- `STATUS` (R73): 0x0 `OK`, 0x1 to 0x4 BA's error kinds, 0xF `Refused`. -/
def Reply.status : Reply → BitVec 4
  | .ok _ => 0x0
  | .error kind _ _ => kind.code
  | .refused _ => 0xF

/-- A count in a 32-bit response field (R71): the count itself where it fits, which under any bounded
`CAP_WORDS` it always does (R115); a free value where it does not (log 4). -/
def countField (n : Nat) : BitVec 32 :=
  if n < 2 ^ 32 then BitVec.ofNat 32 n else Config.wideCount n

/-- The characters an outcome sends on payload-out (R75): those of a text, else none. -/
def Reply.chars : Reply → List Byte
  | .ok (.text chars) => chars
  | .ok _ => []
  | .error _ _ _ => []
  | .refused _ => []

/-- A response whose every field is zero (R10: a field a rule does not name is zero). -/
def Response.zero : Response :=
  { status := 0, reason := 0, vreg := 0, data := 0, info0 := 0, info1 := 0, tlen := 0 }

/-- The response of an outcome (R71): `VREG` for chaining (R72), `DATA` 0 or 1 for a bit (R104) and the count
for WEIGHT (R112), `TLEN` for a text (R170), `INFO0` and `INFO1` for an error (R201), `REASON` for a refusal
(R74). -/
def Reply.response : Reply → Response
  | .ok .nothing => Response.zero
  | .ok (.register vd) => { Response.zero with vreg := vd }
  | .ok (.bit b) => { Response.zero with data := if b then 1 else 0 }
  | .ok (.count n) => { Response.zero with data := countField n }
  | .ok (.text chars) => { Response.zero with tlen := countField chars.length }
  | .error kind info0 info1 => { Response.zero with status := kind.code, info0 := info0, info1 := info1 }
  | .refused reason => { Response.zero with status := 0xF, reason := reason.code }

end Sys2Proof.Machine
end

