-- ==== Sys2Proof/Machine/Ops.lean ====
section
/-!
DEFINITION. The named operations over State: reading and writing a register (R10, R20), giving a response
(R71, R75), the three ways a command ends (R10, R12), and the reset event (R230, R231). The BVU takes no
exception: an error saves nothing and transfers control nowhere (R214), so `raise` and `refuse` are what
stands in the place of exception entry, and there is no return from one (R215).
-/
namespace Sys2Proof.Machine

/-- What every meaning answers. -/
abbrev Outcome := Host.Outcome State Fault Refusal

/-- `wc` of a number of bits, `ceil(n / 32)` (R9). -/
def wordCount (n : Nat) : Nat := (n + 31) / 32

/-- `wc(d)` of a register (R9): BA's `word_count`, from `length` alone. -/
def VReg.wc (r : VReg) : Nat := wordCount r.length

/-- `v[d]`, if there is a register of that number (R10, R20, R205). -/
def State.reg? (s : State) (d : RegNum) : Option VReg := s.regs[d.toNat]?

/-- `v[d] <- r` (R10). -/
def State.setReg (s : State) (d : RegNum) (r : VReg) : State :=
  { s with regs := s.regs.set d.toNat r }

/-- Give the response of an outcome: one transfer on response-out and a text's characters on payload-out
(R71, R75, R76). Both go behind what the host has not yet taken, since the BVU never drops a response
(R238). -/
def State.send (s : State) (r : Reply) : State :=
  { s with
    responseOut := s.responseOut ++ [r.response]
    payloadOut := s.payloadOut ++ r.chars }

/-- `respond OK(...)` (R10). -/
def respond (result : Result) (s : State) : Outcome := .next (s.send (.ok result))

/-- `raise <Kind>(info0, info1)` (R10, R200, R201): the error is in the response and no register changes
(R203). -/
def raise (kind : ErrorKind) (info0 info1 : BitVec 32) (s : State) : Outcome :=
  .next (s.send (.error kind info0 info1))

/-- `refuse <Reason>` (R10, R204): the refusal is in the response and no register changes (R203). -/
def refuse (reason : Reason) (s : State) : Outcome := .next (s.send (.refused reason))

/-- More words than a vector register can hold (R102, R185); never so when `CAP_WORDS` is unbounded. -/
def State.overCapacity (s : State) (n : Nat) : Bool :=
  match s.capWords with
  | none => false
  | some c => decide (c < n)

/-- What the reset input does (R230, R231, R34): every register unconstructed with unspecified contents (free
values, log 3), no command in progress (one that was is abandoned without a response, its payload lost), all
four channels empty. The parameters and the input's own level stay. -/
def State.afterReset (s : State) : State :=
  { s with
    regs := s.regs.mapIdx fun d _ =>
      { valid := false, length := Config.resetLength s.resets d, words := Config.resetWords s.resets d }
    inProgress := none
    commandIn := []
    payloadIn := []
    responseOut := []
    payloadOut := []
    resets := s.resets + 1 }

end Sys2Proof.Machine
end

