-- ==== Sys2Proof/Machine/Operands.lean ====
section
/-!
DEFINITION. The operand forms of the twelve commands: the receiver and the other register with the common
checks of R212 (register numbers before construction, `VD` before `VS`), the bit index operand (R40, R105),
the signed operand as the response shows it (R201), and the radix (R64, R176).
-/
namespace Sys2Proof.Machine

/-- A signed operand as the 32-bit field `ARG` presents it: `INFO0` of three error kinds (R201). -/
def argField (n : Int) : BitVec 32 := BitVec.ofInt 32 n

/-- R212 steps 2 and 3 for a command with one register operand that must be constructed (R205, R206): then
the command's own part runs on the receiver. -/
def withReceiver (vd : RegNum) (s : State) (body : VReg → Outcome) : Outcome :=
  match s.reg? vd with
  | none => refuse .badRegister s
  | some r => if r.valid then body r else refuse .notConstructed s

/-- R212 steps 2 and 3 for AND, OR and XOR: both register numbers, then both constructions, `VD` before `VS`
each time. `vd = vs` is allowed, and both are then the same register as it was before (R28, R147). -/
def withPair (vd vs : RegNum) (s : State) (body : VReg → VReg → Outcome) : Outcome :=
  match s.reg? vd, s.reg? vs with
  | none, _ => refuse .badRegister s
  | some _, none => refuse .badRegister s
  | some r, some o =>
    if r.valid then
      if o.valid then body r o else refuse .notConstructed s
    else refuse .notConstructed s

/-- R212 step 2 alone, for NEW and PARSE, which need no constructed register (R206). -/
def withTarget (vd : RegNum) (s : State) (body : Outcome) : Outcome :=
  match s.reg? vd with
  | none => refuse .badRegister s
  | some _ => body

/-- The range check of GET and SET: `0 <= index < length`, against `length` and not the capacity (R105,
R107). -/
def inRange (index : Int) (r : VReg) : Bool := decide (0 ≤ index ∧ index < (r.length : Int))

/-- `bit(d, i)` of R10 and R40: bit `i mod 32` of word `i div 32`. -/
def VReg.bit (r : VReg) (i : Nat) : Bool := (r.words.getD (i / 32) 0).getLsbD (i % 32)

/-- The radix is within 2 to 36 (R64, R176, R186). -/
def radixOk (radix : Nat) : Bool := decide (2 ≤ radix ∧ radix ≤ 36)

/-- Construct a new BitVector in register `vd` (R21 to R24): all three fields are written, whatever the
register held before (R103, R188), and the response names the register (R72). -/
def construct (vd : RegNum) (length : Nat) (words : List Word) (s : State) : Outcome :=
  respond (.register vd) (s.setReg vd { valid := true, length := length, words := words })

/-- Replace the words of a constructed register (R22, R23): `length` and `valid` stay. -/
def replaceWords (vd : RegNum) (r : VReg) (words : List Word) (result : Result) (s : State) : Outcome :=
  respond result (s.setReg vd { r with words := words })

end Sys2Proof.Machine
end

