-- ==== Sys2Proof/Machine/Algebra.lean ====
section
/-!
DEFINITION. Bitwise algebra (41_bitwise_algebra.md): NOT, AND, OR, XOR. In place (R140), word by word over
the whole storage, padding bits included (R148).
-/
namespace Sys2Proof.Machine

/-- `NOT vd` (R141). -/
def execNot (vd : RegNum) (s : State) : Outcome :=
  withReceiver vd s fun r => replaceWords vd r (r.words.map fun x => ~~~x) (.register vd) s

/-- What AND, OR and XOR share (R142 to R146): `LengthMismatch` when the word counts differ, lengths not
looked at otherwise; else each word of the receiver combined with the other's word of the same index. -/
def combine (op : Word → Word → Word) (vd vs : RegNum) (s : State) : Outcome :=
  withPair vd vs s fun r o =>
    if r.wc = o.wc then replaceWords vd r (List.zipWith op r.words o.words) (.register vd) s
    else raise .lengthMismatch (countField r.wc) (countField o.wc) s

/-- `AND vd, vs` (R142). -/
def execAnd (vd vs : RegNum) (s : State) : Outcome := combine (fun x y => x &&& y) vd vs s

/-- `OR vd, vs` (R143). -/
def execOr (vd vs : RegNum) (s : State) : Outcome := combine (fun x y => x ||| y) vd vs s

/-- `XOR vd, vs` (R144). -/
def execXor (vd vs : RegNum) (s : State) : Outcome := combine (fun x y => x ^^^ y) vd vs s

end Sys2Proof.Machine
end

