-- ==== Sys2Proof/Machine/Shift.lean ====
section
/-!
DEFINITION. Left shift (42_shift.md): LSHIFT, by the word algorithm of R160 and R163.
-/
namespace Sys2Proof.Machine

/-- `src(i - back)` of R160: the old word `back` places below index `i`, zero where that index is negative. -/
def srcWord (old : List Word) (i back : Nat) : Word :=
  if back ≤ i then old.getD (i - back) 0 else 0

/-- The new word at index `i` (R160, R163): the source word `n div 32` below, shifted up by `n mod 32`, with
the top bits of the next-lower source word brought in; that carry is left out when `n mod 32 = 0`. -/
def shiftedWord (old : List Word) (n i : Nat) : Word :=
  if n % 32 = 0 then srcWord old i (n / 32)
  else (srcWord old i (n / 32) <<< (n % 32)) ||| (srcWord old i (n / 32 + 1) >>> (32 - n % 32))

/-- The `count` words after a shift by `n` (R160). -/
def shiftWords (old : List Word) (count n : Nat) : List Word :=
  (List.range count).map fun i => shiftedWord old n i

/-- `LSHIFT vd, n` (R160 to R167): `BadOperand` for a negative amount, `ShiftOverflow` for one above the
storage capacity minus one (so for every amount on a register with no words), else the shift over the whole
storage. -/
def execLshift (vd : RegNum) (n : Int) (s : State) : Outcome :=
  withReceiver vd s fun r =>
    if n < 0 then refuse .badOperand s
    else if n > 32 * (r.wc : Int) - 1 then raise .shiftOverflow (argField n) 0 s
    else replaceWords vd r (shiftWords r.words r.wc n.toNat) (.register vd) s

end Sys2Proof.Machine
end

