-- ==== Sys2Proof/Machine/Storage.lean ====
section
/-!
DEFINITION. Storage and indexed access (40_storage_indexed_access.md): NEW, GET, SET, SETVALUE, WEIGHT.
-/
namespace Sys2Proof.Machine

/-- `NEW vd, length` (R100 to R103): `InvalidLength` for a negative length, `Capacity` for more words than a
register holds, else a fresh vector of zero words. -/
def execNew (vd : RegNum) (length : Int) (s : State) : Outcome :=
  withTarget vd s <|
    if length < 0 then raise .invalidLength (argField length) 0 s
    else if s.overCapacity (wordCount length.toNat) then refuse .capacity s
    else construct vd length.toNat (List.replicate (wordCount length.toNat) 0) s

/-- `GET vd, index` (R104, R105): one logical bit, as `DATA` 0 or 1. -/
def execGet (vd : RegNum) (index : Int) (s : State) : Outcome :=
  withReceiver vd s fun r =>
    if inRange index r then respond (.bit (r.bit index.toNat)) s
    else raise .indexOutOfRange (argField index) 0 s

/-- One bit of a word set or cleared by the mask `m = 2^k` (R106). -/
def setWordBit (x : Word) (k : Nat) (value : Bool) : Word :=
  if value then x ||| BitVec.twoPow 32 k else x &&& ~~~(BitVec.twoPow 32 k)

/-- The words after SET (R106): word `index div 32` with one bit written, no other word touched (R45). -/
def setBit (words : List Word) (index : Nat) (value : Bool) : List Word :=
  words.modify (index / 32) fun x => setWordBit x (index % 32) value

/-- `SET vd, index, value` (R106 to R108). -/
def execSet (vd : RegNum) (index : Int) (value : Bool) (s : State) : Outcome :=
  withReceiver vd s fun r =>
    if inRange index r then replaceWords vd r (setBit r.words index.toNat value) .nothing s
    else raise .indexOutOfRange (argField index) 0 s

/-- `SETVALUE vd, words` (R109 to R111): every word replaced as supplied, padding bits too, when the count
agrees; else `LengthMismatch` with the expected and the actual count. -/
def execSetvalue (vd : RegNum) (words : List Word) (s : State) : Outcome :=
  withReceiver vd s fun r =>
    if words.length = r.wc then replaceWords vd r words .nothing s
    else raise .lengthMismatch (countField r.wc) (countField words.length) s

/-- `popcount(x)`: the number of `k` in 0 to 31 with `x[k] = 1` (R8). -/
def popcount (x : Word) : Nat := (List.range 32).countP fun k => x.getLsbD k

/-- The count of R117, BA's SWAR technique with the usual constants: counts folded into pairs, nibbles and
bytes, then summed by a multiplication into the top byte. R117 makes the function `popcount` the norm and
this a way to compute it; no command can tell them apart. -/
def swarPopcount (x : Word) : Nat :=
  let x1 := x - ((x >>> 1) &&& 0x55555555#32)
  let x2 := (x1 &&& 0x33333333#32) + ((x1 >>> 2) &&& 0x33333333#32)
  let x3 := (x2 + (x2 >>> 4)) &&& 0x0F0F0F0F#32
  ((x3 * 0x01010101#32) >>> 24).toNat

/-- The number of 1 bits in a storage (R112): all words, padding bits included (R113). -/
def weightOf (words : List Word) : Nat := (words.map popcount).sum

/-- `WEIGHT vd` (R112, R113, R115). -/
def execWeight (vd : RegNum) (s : State) : Outcome :=
  withReceiver vd s fun r => respond (.count (weightOf r.words)) s

end Sys2Proof.Machine
end

