-- ==== Sys2Proof/Machine/Text.lean ====
section
/-!
DEFINITION. Text serialization (43_text_serialization.md): TOSTRING and PARSE. A text is a list of ASCII
codes: 8-bit characters on payload-out (R75), 32-bit items on payload-in (R67).
-/
namespace Sys2Proof.Machine

/-- The space, 0x20 (R172). -/
def spaceCode : Nat := 0x20

/-- The code of the digit of value `d` (R172): `'0'` to `'9'` for 0 to 9, `'a'` to `'z'` for 10 to 35. -/
def digitCode (d : Nat) : Nat := if d < 10 then 0x30 + d else 0x61 + (d - 10)

/-- The value of a digit character (R172), for any payload item: `none` for a code that is no digit
character, which covers upper-case letters and every item with a bit set above bit 7 (R183). -/
def digitValue (c : Nat) : Option Nat :=
  if 0x30 ≤ c ∧ c ≤ 0x39 then some (c - 0x30)
  else if 0x61 ≤ c ∧ c ≤ 0x7A then some (c - 0x61 + 10)
  else none

/-- The pad width `w(r)`: the least `w` with `r^w >= 2^32` (R171). For a radix of 2 or more it is at most
32. -/
def padWidth (r : Nat) : Nat := ((List.range 33).find? fun w => decide (2 ^ 32 ≤ r ^ w)).getD 32

/-- `token(x, r)` (R173): `w(r)` digits, the most significant first, filled with `'0'` on the left. -/
def token (x : Word) (r : Nat) : List Byte :=
  (List.range (padWidth r)).map fun j =>
    BitVec.ofNat 8 (digitCode (x.toNat / r ^ (padWidth r - 1 - j) % r))

/-- Tokens joined with a single space, none before the first or after the last (R174); no tokens give the
empty text (R175). -/
def joinTokens : List (List Byte) → List Byte
  | [] => []
  | [t] => t
  | t :: u :: rest => t ++ BitVec.ofNat 8 spaceCode :: joinTokens (u :: rest)

/-- The text of a storage: the most significant word first (R170, R174). -/
def textOf (words : List Word) (r : Nat) : List Byte :=
  joinTokens (words.reverse.map fun x => token x r)

/-- `TOSTRING vd, radix` (R170, R176). -/
def execTostring (vd : RegNum) (radix : Nat) (s : State) : Outcome :=
  withReceiver vd s fun r =>
    if radixOk radix then respond (.text (textOf r.words radix)) s
    else refuse .badRadix s

/-- A non-empty text cut at every space (R180): one piece more than there are spaces. -/
def cutAtSpaces : List Word → List (List Word)
  | [] => [[]]
  | c :: cs =>
    if c.toNat = spaceCode then [] :: cutAtSpaces cs
    else
      match cutAtSpaces cs with
      | [] => [[c]]
      | t :: ts => (c :: t) :: ts

/-- The tokens of a text (R180): none for the empty text. -/
def tokensOf (text : List Word) : List (List Word) := if text.isEmpty then [] else cutAtSpaces text

/-- The number a run of digits stands for in radix `r`, the most significant first, continuing from `acc`
(R182); `none` if a character is not a digit valid in the radix (R172, R183). -/
def digitsNumber (r : Nat) : List Word → Nat → Option Nat
  | [], acc => some acc
  | c :: cs, acc =>
    match digitValue c.toNat with
    | none => none
    | some d => if d < r then digitsNumber r cs (acc * r + d) else none

/-- The word of a token (R182), `none` when it is malformed (R183): empty, with a character that is no digit
of the radix, or of value `2^32` or more. -/
def tokenWord (r : Nat) (tok : List Word) : Option Word :=
  if tok.isEmpty then none
  else
    match digitsNumber r tok 0 with
    | none => none
    | some v => if v < 2 ^ 32 then some (BitVec.ofNat 32 v) else none

/-- The words of a list of tokens, in the tokens' order; `none` if one is malformed (R183). -/
def tokenWords (r : Nat) : List (List Word) → Option (List Word)
  | [] => some []
  | t :: ts =>
    match tokenWord r t, tokenWords r ts with
    | some x, some xs => some (x :: xs)
    | _, _ => none

/-- `PARSE vd, text, radix` (R181 to R186, R188): `BadRadix`, then `BadText`, then `Capacity`, else a new
vector of 32 bits a token, the last token its word 0. -/
def execParse (vd : RegNum) (text : List Word) (radix : Nat) (s : State) : Outcome :=
  withTarget vd s <|
    if radixOk radix then
      match tokenWords radix (tokensOf text) with
      | none => refuse .badText s
      | some xs =>
        if s.overCapacity xs.length then refuse .capacity s
        else construct vd (32 * xs.length) xs.reverse s
    else refuse .badRadix s

end Sys2Proof.Machine
end

