-- ==== Sys2Proof/Syntax.lean ====
section
/-!
DEFINITION. The twelve commands of R60, as the abstract level of 30_encoding.md section 1 has them: one
constructor per row of spec/opcode_table.json, with the operand types R60 gives. A payload is part of its
command (R77), so SETVALUE carries its words and PARSE its text.
-/
namespace Sys2Proof

/-- A command (R60). Integer operands are mathematical integers, as R60 types them; WellFormed.lean says
which of them a header can carry (R63). A text is the list of payload-in items, one character an item
(R67); an item whose bits `[31:8]` are not zero is no character and makes the text malformed (R183). -/
inductive Instr where
  /-- `NEW vd, length` (R100). -/
  | new (vd : RegNum) (length : Int)
  /-- `GET vd, index` (R104). -/
  | get (vd : RegNum) (index : Int)
  /-- `SET vd, index, value` (R106). -/
  | set (vd : RegNum) (index : Int) (value : Bool)
  /-- `SETVALUE vd, words` (R109); `words` lists the word for index 0 first (R66). -/
  | setvalue (vd : RegNum) (words : List Word)
  /-- `WEIGHT vd` (R112). -/
  | weight (vd : RegNum)
  /-- `NOT vd` (R141). -/
  | not (vd : RegNum)
  /-- `AND vd, vs` (R142). -/
  | and (vd vs : RegNum)
  /-- `OR vd, vs` (R143). -/
  | or (vd vs : RegNum)
  /-- `XOR vd, vs` (R144). -/
  | xor (vd vs : RegNum)
  /-- `LSHIFT vd, n` (R160). -/
  | lshift (vd : RegNum) (n : Int)
  /-- `TOSTRING vd, radix` (R170). -/
  | tostring (vd : RegNum) (radix : Nat)
  /-- `PARSE vd, text, radix` (R181). -/
  | parse (vd : RegNum) (text : List Word) (radix : Nat)
  deriving DecidableEq, Repr

end Sys2Proof
end

