-- ==== Sys2Proof/Machine/Dispatch.lean ====
section
/-!
DEFINITION. One arm per command, one direct call of its meaning each.
-/
namespace Sys2Proof.Machine

def exec (i : Instr) (s : State) : Host.Outcome State Fault Refusal :=
  match i with
  | .new vd length => Sys2Proof.Machine.execNew vd length s
  | .get vd index => Sys2Proof.Machine.execGet vd index s
  | .set vd index value => Sys2Proof.Machine.execSet vd index value s
  | .setvalue vd words => Sys2Proof.Machine.execSetvalue vd words s
  | .weight vd => Sys2Proof.Machine.execWeight vd s
  | .not vd => Sys2Proof.Machine.execNot vd s
  | .and vd vs => Sys2Proof.Machine.execAnd vd vs s
  | .or vd vs => Sys2Proof.Machine.execOr vd vs s
  | .xor vd vs => Sys2Proof.Machine.execXor vd vs s
  | .lshift vd n => Sys2Proof.Machine.execLshift vd n s
  | .tostring vd radix => Sys2Proof.Machine.execTostring vd radix s
  | .parse vd text radix => Sys2Proof.Machine.execParse vd text radix s

end Sys2Proof.Machine
end

