-- ==== Sys2Proof/Decode.lean ====
section
/-!
DEFINITION. The command encoding (30_encoding.md): the header's fields (R61), the opcode map (R68), the
must-be-zero rule (R69, R70), the payload count (R63, R77), a total decoder that rejects by name (R78), and
the encoder written from the same tables. `opcodeTable` is R68's second table, match and mask.
-/
namespace Sys2Proof

/-- The fields of a header (R61). -/
structure Fields where
  op : BitVec 4
  vd : RegNum
  vs : RegNum
  radix : BitVec 6
  val : BitVec 1
  rsv : BitVec 13
  arg : BitVec 32
  deriving DecidableEq, Repr

/-- The slices of R61: `OP` is `H[3:0]`, `VD` is `H[7:4]`, and so on. -/
def unpack (h : Header) : Fields :=
  { op := h.extractLsb' 0 4
    vd := h.extractLsb' 4 4
    vs := h.extractLsb' 8 4
    radix := h.extractLsb' 12 6
    val := h.extractLsb' 18 1
    rsv := h.extractLsb' 19 13
    arg := h.extractLsb' 32 32 }

/-- R61: `H = OP + 16*VD + 256*VS + 4096*RADIX + 2^18*VAL + 2^19*RSV + 2^32*ARG`. -/
def pack (f : Fields) : Header :=
  BitVec.ofNat 64
    (f.op.toNat + 16 * f.vd.toNat + 256 * f.vs.toNat + 4096 * f.radix.toNat
      + 2 ^ 18 * f.val.toNat + 2 ^ 19 * f.rsv.toNat + 2 ^ 32 * f.arg.toNat)

/-- The commands without their operands: the rows of R68. -/
inductive Op where
  | new | get | set | setvalue | weight | not | and | or | xor | lshift | tostring | parse
  deriving DecidableEq, Repr

/-- The `OP` code of a command (R68). -/
def Op.code : Op → BitVec 4
  | .new => 0x1
  | .get => 0x2
  | .set => 0x3
  | .setvalue => 0x4
  | .weight => 0x5
  | .not => 0x6
  | .and => 0x7
  | .or => 0x8
  | .xor => 0x9
  | .lshift => 0xA
  | .tostring => 0xB
  | .parse => 0xC

/-- All twelve, in the order of R60. -/
def Op.all : List Op :=
  [.new, .get, .set, .setvalue, .weight, .not, .and, .or, .xor, .lshift, .tostring, .parse]

/-- The command an `OP` code names; `none` for the reserved codes 0x0, 0xD, 0xE, 0xF (R70). -/
def Op.ofCode (c : BitVec 4) : Option Op := Op.all.find? fun op => op.code == c

/-- Which of the fields beside `OP` and `VD` a command uses: the third column of R68's first table. -/
structure Uses where
  vs : Bool := false
  radix : Bool := false
  val : Bool := false
  arg : Bool := false
  deriving DecidableEq, Repr

/-- The third column of R68's first table. Every command uses `VD`; none uses `RSV`. -/
def Op.uses : Op → Uses
  | .new => { arg := true }
  | .get => { arg := true }
  | .set => { val := true, arg := true }
  | .setvalue => { arg := true }
  | .weight => {}
  | .not => {}
  | .and => { vs := true }
  | .or => { vs := true }
  | .xor => { vs := true }
  | .lshift => { arg := true }
  | .tostring => { radix := true }
  | .parse => { radix := true, arg := true }

/-- R69: `RSV` and every field the command does not use are zero. -/
def unusedZero (u : Uses) (f : Fields) : Bool :=
  f.rsv == 0 && (u.vs || f.vs == 0) && (u.radix || f.radix == 0) && (u.val || f.val == 0)
    && (u.arg || f.arg == 0)

/-- The two commands that take a payload (R68, R77). -/
def Op.hasPayload : Op → Bool
  | .new => false
  | .get => false
  | .set => false
  | .setvalue => true
  | .weight => false
  | .not => false
  | .and => false
  | .or => false
  | .xor => false
  | .lshift => false
  | .tostring => false
  | .parse => true

/-- R77: after a header whose `OP` is SETVALUE or PARSE the BVU takes `zext_32(ARG)` payload items,
whatever the outcome will be, a refusal included; after any other header it takes none. The count goes by
`OP` alone: such a header with a non-zero must-be-zero field is refused (R69) and still takes its items
(log 11). -/
def payloadCount (h : Header) : Nat :=
  match Op.ofCode (unpack h).op with
  | none => 0
  | some op => if op.hasPayload then (unpack h).arg.toNat else 0

/-- The abstract command of a header's fields and its payload (R63, R64, R65): `sext_32(ARG)` for NEW, GET,
SET and LSHIFT; the payload's length stands for the count of SETVALUE and PARSE. -/
def instrOf (op : Op) (f : Fields) (payload : List Word) : Instr :=
  match op with
  | .new => .new f.vd f.arg.toInt
  | .get => .get f.vd f.arg.toInt
  | .set => .set f.vd f.arg.toInt (f.val == 1)
  | .setvalue => .setvalue f.vd payload
  | .weight => .weight f.vd
  | .not => .not f.vd
  | .and => .and f.vd f.vs
  | .or => .or f.vd f.vs
  | .xor => .xor f.vd f.vs
  | .lshift => .lshift f.vd f.arg.toInt
  | .tostring => .tostring f.vd f.radix.toNat
  | .parse => .parse f.vd payload f.radix.toNat

/-- Why a header is not a command that can run now. The first two are answered with
`Refused(ReservedEncoding)` (R69, R70); the third is no refusal: the BVU waits for the rest (R237). -/
inductive Reject where
  /-- `OP` is 0x0, 0xD, 0xE or 0xF (R70). -/
  | reservedOpcode
  /-- `RSV` or a field the command does not use is not zero (R69). -/
  | nonZeroUnused
  /-- Fewer payload items than `ARG` are there (R237). -/
  | shortPayload
  deriving DecidableEq, Repr

/-- What the decoder answers: a command and the payload items left over, or a rejection by name. -/
inductive Decoded where
  | instr (i : Instr) (rest : List Word)
  | reject (r : Reject)
  deriving DecidableEq, Repr

/-- The decoder (R78): total on every 64-bit header and every list of payload items. -/
def decode (h : Header) (items : List Word) : Decoded :=
  match Op.ofCode (unpack h).op with
  | none => .reject .reservedOpcode
  | some op =>
    if unusedZero op.uses (unpack h) then
      if items.length < payloadCount h then .reject .shortPayload
      else .instr (instrOf op (unpack h) (items.take (payloadCount h))) (items.drop (payloadCount h))
    else .reject .nonZeroUnused

/-- The command an instruction is of. -/
def Instr.op : Instr → Op
  | .new _ _ => .new
  | .get _ _ => .get
  | .set _ _ _ => .set
  | .setvalue _ _ => .setvalue
  | .weight _ => .weight
  | .not _ => .not
  | .and _ _ => .and
  | .or _ _ => .or
  | .xor _ _ => .xor
  | .lshift _ _ => .lshift
  | .tostring _ _ => .tostring
  | .parse _ _ _ => .parse

/-- The fields of a command with the unused ones zero (R61, R69). -/
def baseFields (op : Op) (vd : RegNum) : Fields :=
  { op := op.code, vd := vd, vs := 0, radix := 0, val := 0, rsv := 0, arg := 0 }

/-- The fields that present a command (R63 to R65). -/
def Instr.fields : Instr → Fields
  | .new vd length => { baseFields .new vd with arg := BitVec.ofInt 32 length }
  | .get vd index => { baseFields .get vd with arg := BitVec.ofInt 32 index }
  | .set vd index value =>
    { baseFields .set vd with arg := BitVec.ofInt 32 index, val := BitVec.ofBool value }
  | .setvalue vd words => { baseFields .setvalue vd with arg := BitVec.ofNat 32 words.length }
  | .weight vd => baseFields .weight vd
  | .not vd => baseFields .not vd
  | .and vd vs => { baseFields .and vd with vs := vs }
  | .or vd vs => { baseFields .or vd with vs := vs }
  | .xor vd vs => { baseFields .xor vd with vs := vs }
  | .lshift vd n => { baseFields .lshift vd with arg := BitVec.ofInt 32 n }
  | .tostring vd radix => { baseFields .tostring vd with radix := BitVec.ofNat 6 radix }
  | .parse vd text radix =>
    { baseFields .parse vd with radix := BitVec.ofNat 6 radix, arg := BitVec.ofNat 32 text.length }

/-- The payload that presents a command, item 0 first (R66, R67). -/
def Instr.payload : Instr → List Word
  | .new _ _ => []
  | .get _ _ => []
  | .set _ _ _ => []
  | .setvalue _ words => words
  | .weight _ => []
  | .not _ => []
  | .and _ _ => []
  | .or _ _ => []
  | .xor _ _ => []
  | .lshift _ _ => []
  | .tostring _ _ => []
  | .parse _ text _ => text

/-- The encoder: the header and the payload that present a well-formed command. -/
def encode (i : Instr) : Header × List Word := (pack i.fields, i.payload)

/-- One row of R68's match and mask table: a header `H` is the command `op` when `H & mask = value`. -/
structure OpcodeRow where
  op : Op
  value : Header
  mask : Header
  deriving DecidableEq, Repr

/-- R68's match and mask table, as spec/opcode_table.json has it. The decoder goes by the fields; that the
two agree is a statement of its own. -/
def opcodeTable : List OpcodeRow :=
  [ ⟨.new, 0x0000000000000001, 0x00000000FFFFFF0F⟩,
    ⟨.get, 0x0000000000000002, 0x00000000FFFFFF0F⟩,
    ⟨.set, 0x0000000000000003, 0x00000000FFFBFF0F⟩,
    ⟨.setvalue, 0x0000000000000004, 0x00000000FFFFFF0F⟩,
    ⟨.weight, 0x0000000000000005, 0xFFFFFFFFFFFFFF0F⟩,
    ⟨.not, 0x0000000000000006, 0xFFFFFFFFFFFFFF0F⟩,
    ⟨.and, 0x0000000000000007, 0xFFFFFFFFFFFFF00F⟩,
    ⟨.or, 0x0000000000000008, 0xFFFFFFFFFFFFF00F⟩,
    ⟨.xor, 0x0000000000000009, 0xFFFFFFFFFFFFF00F⟩,
    ⟨.lshift, 0x000000000000000A, 0x00000000FFFFFF0F⟩,
    ⟨.tostring, 0x000000000000000B, 0xFFFFFFFFFFFC0F0F⟩,
    ⟨.parse, 0x000000000000000C, 0x00000000FFFC0F0F⟩ ]

/-- `H & mask = match` (R68). -/
def OpcodeRow.covers (row : OpcodeRow) (h : Header) : Bool := h &&& row.mask == row.value

/-- The command whose row of the table a header matches, if any: R78's reading of R68. -/
def tableOp (h : Header) : Option Op := (opcodeTable.find? fun row => row.covers h).map (·.op)

/-- `n` payload items cut from a number, the first in its lowest 32 bits: how the bits after the header are
laid out for `decodeTableWord`. -/
def itemsOf : Nat → Nat → List Word
  | 0, _ => []
  | n + 1, w => BitVec.ofNat 32 w :: itemsOf n (w / 2 ^ 32)

/-- The header of an instruction whose bits are `w`, numbered as spec/opcode_table.json numbers them: the
table's row is one 64-bit header (one transfer on command-in, R76), its bit 0 the least significant. Bits
from `nbits` up are zero. -/
def tableHeader (nbits w : Nat) : Header := BitVec.ofNat 64 (w % 2 ^ nbits)

/-- The payload items that follow that header, cut from the bits above the header's 64, which are zero where
`nbits` gives none. -/
def tableItems (nbits w : Nat) : List Word :=
  itemsOf (payloadCount (tableHeader nbits w)) (w % 2 ^ nbits / 2 ^ 64)

/-- The command the decoder reads from an instruction whose bits are `w`. -/
def decodeTableWord (nbits w : Nat) : Option Instr :=
  match decode (tableHeader nbits w) (tableItems nbits w) with
  | .instr i _ => some i
  | .reject _ => none

end Sys2Proof
end

