-- ==== Sys2Proof/Machine/Fetch.lean ====
section
/-!
DEFINITION. Taking a command from the channels (R76, R77, R230, R237, R238). The BVU has no program counter
and fetches nothing by itself (R29): a command comes from the host, on command-in, its payload on payload-in.
-/
namespace Sys2Proof.Machine

/-- What taking a command comes to. -/
inductive Fetched where
  /-- No command runs in this step: the BVU is in reset, idle, or waits for the host. -/
  | hold (s : State)
  /-- The header is no command: `Refused(ReservedEncoding)` (R69, R70). -/
  | reject (s : State)
  /-- The command and its whole payload are in; it runs. -/
  | run (i : Instr) (s : State)

/-- The payload items a command in progress has once it takes what is there, up to its count (R77, R237). -/
def gathered (p : Pending) (s : State) : List Word :=
  p.items ++ s.payloadIn.take (payloadCount p.header - p.items.length)

/-- The state once those items are off the channel, with the command no longer in progress. Items beyond the
count stay in the channel (R237). -/
def State.afterGathering (s : State) (p : Pending) : State :=
  { s with
    payloadIn := s.payloadIn.drop (payloadCount p.header - p.items.length)
    inProgress := none }

/-- Take what is there of the payload of a command whose header has been accepted (R77, R237). With all of it
in, the command is decoded; with less, the command stays in progress and keeps what it has taken. -/
def acquire (p : Pending) (s : State) : Fetched :=
  if (gathered p s).length < payloadCount p.header then
    .hold { s.afterGathering p with inProgress := some { header := p.header, items := gathered p s } }
  else
    match decode p.header (gathered p s) with
    | .instr i _ => .run i (s.afterGathering p)
    | .reject _ => .reject (s.afterGathering p)

/-- The BVU accepts a header only when the previous command's response and all of its payload-out characters
have been taken (R77, R238). -/
def State.outputsTaken (s : State) : Bool := s.responseOut.isEmpty && s.payloadOut.isEmpty

/-- One turn at the channels: reset first (R230); then a command in progress goes on; else the next header is
accepted if the outputs have been taken and a header is there. -/
def fetch (s : State) : Fetched :=
  if s.resetIn then .hold s.afterReset
  else
    match s.inProgress with
    | some p => acquire p s
    | none =>
      if s.outputsTaken then
        match s.commandIn with
        | [] => .hold s
        | h :: hs => acquire { header := h, items := [] } { s with commandIn := hs }
      else .hold s

/-- Make the next command the one of header `h` and payload `items`, with nothing in its way: the reset input
released, no command in progress, the outputs taken by the host, the header and the payload first in their
channels. Nothing else changes. -/
def State.withCommand (s : State) (h : Header) (items : List Word) : State :=
  { s with
    resetIn := false
    inProgress := none
    commandIn := h :: s.commandIn
    payloadIn := items ++ s.payloadIn
    responseOut := []
    payloadOut := [] }

end Sys2Proof.Machine
end

