-- ==== Sys2Proof/Machine/Step.lean ====
section
/-!
DEFINITION. One step of the BVU (R11): take a command from the channels and run it, completely or not at all
(R46), or hold. And the placing of one instruction where the next step takes it.
-/
namespace Sys2Proof.Machine

/-- One step. A header that is no command is answered with `Refused(ReservedEncoding)` (R69, R70, R212
step 1). -/
def step (s : State) : Host.Outcome State Fault Refusal :=
  match fetch s with
  | .hold t => .next t
  | .reject t => refuse .reservedEncoding t
  | .run i t => exec i t

/-- The state with the instruction whose bits are `w` (numbered as spec/opcode_table.json numbers them) where
the next step takes it: its header first on command-in, its payload items first on payload-in (log 6). -/
def State.withFetchWord (s : State) (nbits w : Nat) : State :=
  s.withCommand (tableHeader nbits w) (tableItems nbits w)

end Sys2Proof.Machine
end

