-- ==== Sys2Proof/Machine/HostPort.lean ====
section
/-!
DEFINITION. What the host can do at the BVU's ports (R76, R230, R236 to R239). These are inputs from outside
the machine: they land between steps, and no step is one of them.
-/
namespace Sys2Proof.Machine

/-- The host's actions, one transfer each. -/
inductive HostAction where
  /-- One transfer on command-in (R76). -/
  | sendHeader (h : Header)
  /-- One transfer on payload-in (R76, R237). -/
  | sendItem (x : Word)
  /-- Take the oldest response, if there is one (R238). -/
  | takeResponse
  /-- Take the oldest character, if there is one (R238). -/
  | takeChar
  /-- Set the level of the reset input (R230). -/
  | driveReset (asserted : Bool)
  deriving DecidableEq, Repr

/-- Set the level of the reset input. It acts at once: asserting it abandons a command in progress and clears
the machine with no step needed, and the machine is cleared for as long as it is asserted, up to the moment of
its release (R230, R231). -/
def State.driveReset (s : State) (asserted : Bool) : State :=
  if asserted || s.resetIn then { s.afterReset with resetIn := asserted } else s

/-- The state after a host action. While the reset input is asserted the BVU accepts nothing and sends nothing,
so no transfer takes place on any channel (R230). Only the reset input reaches a register (R239). -/
def hostAct (a : HostAction) (s : State) : State :=
  match a with
  | .sendHeader h => if s.resetIn then s else { s with commandIn := s.commandIn ++ [h] }
  | .sendItem x => if s.resetIn then s else { s with payloadIn := s.payloadIn ++ [x] }
  | .takeResponse => if s.resetIn then s else { s with responseOut := s.responseOut.tail }
  | .takeChar => if s.resetIn then s else { s with payloadOut := s.payloadOut.tail }
  | .driveReset asserted => s.driveReset asserted

/-- Host actions one after the other. -/
def hostActs (as : List HostAction) (s : State) : State := as.foldl (fun t a => hostAct a t) s

end Sys2Proof.Machine
end

