-- ==== Sys2Proof/Machine/Run.lean ====
section
/-!
DEFINITION. A run (R240): a finite list of commands, each a header with its payload (R11), issued after a reset
by the host's own actions at the ports. The host takes each response and its text before it presents the next
header (R236, R238). A command accepted and not yet answered keeps the run from being over. Payload items the
host has sent beyond a command's count stay in the channel, ahead of the next payload (R237).
-/
namespace Sys2Proof.Machine

/-- A command as the host issues it: a header and a payload (R11). -/
structure Command where
  header : Header
  payload : List Word
  deriving DecidableEq, Repr

/-- What the host takes after a command: what stands on response-out and on payload-out. -/
structure Answer where
  responses : List Response
  text : List Byte
  deriving DecidableEq, Repr

/-- The record of a run (R240): the state after the last step, the answers in order, and whether the run is
over. -/
structure RunRecord where
  final : State
  answers : List Answer
  isOver : Bool
  deriving DecidableEq, Repr

/-- No command is waiting for its answer, accepted or presented only, and the BVU is not in reset: the host may
present a command (R236), and a run that ends here is over (R240). -/
def State.settled (s : State) : Bool := !s.resetIn && s.inProgress.isNone && s.commandIn.isEmpty

/-- The host takes every response and every character that waits (R238). -/
def takeOutputs (s : State) : State :=
  hostActs (List.replicate s.responseOut.length .takeResponse ++ List.replicate s.payloadOut.length .takeChar) s

/-- The host sends a command: its header, then its payload items, each behind what the channel still holds
(R76, R237). -/
def present (c : Command) (s : State) : State :=
  hostActs (.sendHeader c.header :: c.payload.map .sendItem) s

/-- Issue one command, with every earlier answer taken first, and let the BVU take its turn. -/
def issue (c : Command) (s : State) : Outcome := step (present c (takeOutputs s))

/-- The answer a state has for the host, if there is one. -/
def State.answers (s : State) : List Answer :=
  if s.responseOut.isEmpty then [] else [{ responses := s.responseOut, text := s.payloadOut }]

/-- Issue the commands in order and record the answers (R240). Where a command is left without its answer the
later ones are not presented (R236), and the run is not over. -/
def runCommands : List Command → State → Host.Outcome RunRecord Fault Refusal
  | [], s => .next { final := s, answers := [], isOver := s.settled }
  | c :: cs, s =>
    if s.settled then
      match issue c s with
      | .fault r => .fault r
      | .refused r => .refused r
      | .next t =>
        match runCommands cs t with
        | .fault r => .fault r
        | .refused r => .refused r
        | .next record => .next { record with answers := t.answers ++ record.answers }
    else .next { final := s, answers := [], isOver := false }

end Sys2Proof.Machine
end

