-- ==== Sys2Proof/Safety.lean ====
section
/-!
DEFINITION. The words claims are stated in: which register a command writes, what it is for a register to be
constructed and sound (R21, R23), the invariant of the machine, what it is for two states to differ only in
contents no command can observe (R34, R232), and the numbers a storage (R41) and a numeral (R173, R182) stand
for.
-/
namespace Sys2Proof

/-- The receiver of a command, `VD` (R62). -/
def Instr.receiver : Instr → RegNum
  | .new vd _ => vd
  | .get vd _ => vd
  | .set vd _ _ => vd
  | .setvalue vd _ => vd
  | .weight vd => vd
  | .not vd => vd
  | .and vd _ => vd
  | .or vd _ => vd
  | .xor vd _ => vd
  | .lshift vd _ => vd
  | .tostring vd _ => vd
  | .parse vd _ _ => vd

/-- The other register of AND, OR and XOR, `VS` (R62). -/
def Instr.other : Instr → Option RegNum
  | .new _ _ => none
  | .get _ _ => none
  | .set _ _ _ => none
  | .setvalue _ _ => none
  | .weight _ => none
  | .not _ => none
  | .and _ vs => some vs
  | .or _ vs => some vs
  | .xor _ vs => some vs
  | .lshift _ _ => none
  | .tostring _ _ => none
  | .parse _ _ _ => none

/-- NEW and PARSE: the two commands that construct, and need no constructed register (R24, R206). -/
def Instr.constructs : Instr → Bool
  | .new _ _ => true
  | .get _ _ => false
  | .set _ _ _ => false
  | .setvalue _ _ => false
  | .weight _ => false
  | .not _ => false
  | .and _ _ => false
  | .or _ _ => false
  | .xor _ _ => false
  | .lshift _ _ => false
  | .tostring _ _ => false
  | .parse _ _ _ => true

/-- The commands whose response names the receiver for chaining when they end `OK` (R72). -/
def Instr.returnsReceiver : Instr → Bool
  | .new _ _ => true
  | .get _ _ => false
  | .set _ _ _ => false
  | .setvalue _ _ => false
  | .weight _ => false
  | .not _ => true
  | .and _ _ => true
  | .or _ _ => true
  | .xor _ _ => true
  | .lshift _ _ => true
  | .tostring _ _ => false
  | .parse _ _ _ => true

/-- The number a numeral stands for in radix `r`, the most significant digit first: the sum of
`d[j] * r^(m - 1 - j)` (R173, R182). -/
def numeral (r : Nat) : List Nat → Nat
  | [] => 0
  | d :: ds => d * r ^ ds.length + numeral r ds

/-- The 36 digit characters in the order of their values: `'0'` to `'9'`, then `'a'` to `'z'` (R172). -/
def digitAlphabet : List Nat :=
  [0x30, 0x31, 0x32, 0x33, 0x34, 0x35, 0x36, 0x37, 0x38, 0x39,
   0x61, 0x62, 0x63, 0x64, 0x65, 0x66, 0x67, 0x68, 0x69, 0x6A, 0x6B, 0x6C, 0x6D,
   0x6E, 0x6F, 0x70, 0x71, 0x72, 0x73, 0x74, 0x75, 0x76, 0x77, 0x78, 0x79, 0x7A]

/-- `codes` spells the number `v` in radix `r` (R173, R182): its characters are digits of the radix, and `v` is
what they stand for. -/
def Spells (r : Nat) (codes : List Nat) (v : Nat) : Prop :=
  ∃ ds : List Nat, (∀ d ∈ ds, d < r) ∧ codes.map some = ds.map (fun d => digitAlphabet[d]?) ∧ numeral r ds = v

/-- `w` is the pad width of radix `r` (R171): the least integer with `r^w >= 2^32`. -/
def IsPadWidth (r w : Nat) : Prop := 2 ^ 32 ≤ r ^ w ∧ ∀ v, v < w → r ^ v < 2 ^ 32

/-- The whole word array as one unsigned integer (R41, R161): the sum of `words[k] * 2^(32 k)`. -/
def vectorValue : List Word → Nat
  | [] => 0
  | x :: xs => x.toNat + 2 ^ 32 * vectorValue xs

end Sys2Proof

namespace Sys2Proof.Machine

/-- Register `d` is constructed and holds `r` (R21). -/
abbrev State.Holds (s : State) (d : RegNum) (r : VReg) : Prop :=
  s.regs[d.toNat]? = some r ∧ r.valid = true

/-- The number of 1 bits in a register's storage, over every bit index of the storage (R40, R112). -/
def VReg.ones (r : VReg) : Nat := (List.range (32 * r.words.length)).countP fun i => r.bit i

/-- `words` has as many words as `r` and each of its bits is the given function of the bit index (R40). -/
def VReg.HasBits (r : VReg) (words : List Word) (bit : Nat → Bool) : Prop :=
  words.length = r.words.length ∧
    ∀ j, j < 32 * r.words.length → (words.getD (j / 32) 0).getLsbD (j % 32) = bit j

/-- Everything but the registers and the two output channels is the same (R27, R46). -/
abbrev State.KeepsRest (s t : State) : Prop :=
  t.capWords = s.capWords ∧ t.resetIn = s.resetIn ∧ t.inProgress = s.inProgress ∧
    t.commandIn = s.commandIn ∧ t.payloadIn = s.payloadIn ∧ t.resets = s.resets

/-- A list of commands run one after the other. -/
def execAll : List Instr → State → Outcome
  | [], s => .next s
  | i :: is, s =>
    match exec i s with
    | .next t => execAll is t
    | .fault r => .fault r
    | .refused r => .refused r

/-- R23 for one register: when constructed, it has exactly `ceil(length / 32)` words. -/
def VReg.sound (r : VReg) : Bool := !r.valid || decide (r.words.length = r.wc)

/-- Every constructed register has no more words than the storage holds (R6, R102, R185). -/
def State.fitsCapacity (s : State) (r : VReg) : Bool := !r.valid || !s.overCapacity r.wc

/-- The parameters are within the ranges of R6: `NVEC` (the size of the register file) from 1 to 16,
`CAP_WORDS` up to `2^26` or unbounded. -/
def State.legalParams (s : State) : Bool := Params.legal { nvec := s.regs.length, capWords := s.capWords }

/-- The ports (R77, R237, R238): at most one response waits to be taken; a command in progress lacks payload,
and was accepted with all outputs taken. -/
def State.portsInOrder (s : State) : Bool :=
  decide (s.responseOut.length ≤ 1) &&
    (match s.inProgress with
     | none => true
     | some p => decide (p.items.length < payloadCount p.header) && s.outputsTaken)

/-- What reset leaves (R231): every register unconstructed, no command in progress, all four channels empty. -/
def State.cleared (s : State) : Bool :=
  (s.regs.all fun r => !r.valid) && s.inProgress.isNone && s.commandIn.isEmpty && s.payloadIn.isEmpty &&
    s.outputsTaken

/-- While the reset input is asserted the machine is as reset leaves it (R230, R231). -/
def State.resetInOrder (s : State) : Bool := !s.resetIn || s.cleared

/-- The invariant of the machine. -/
def State.inv (s : State) : Bool :=
  s.legalParams && s.regs.all VReg.sound && s.regs.all s.fitsCapacity && s.portsInOrder && s.resetInOrder

/-- Ready for a header (R77): not in reset, no command in progress, all outputs taken. -/
abbrev State.Ready (s : State) : Prop :=
  s.resetIn = false ∧ s.inProgress = none ∧ s.responseOut = [] ∧ s.payloadOut = []

/-- Two records of one register that no command can tell apart (R21, R232): both unconstructed, whatever they
contain, or equal. -/
abbrev VReg.Agrees (r q : VReg) : Prop := r.valid = q.valid ∧ (r.valid = true → r = q)

/-- Two states that differ at most in the contents of unconstructed registers (and in the model's own counter
of resets): R232's "what the storage held at reset". -/
structure State.Agrees (s t : State) : Prop where
  count : s.regs.length = t.regs.length
  regs : ∀ (d : Nat) (r q : VReg), s.regs[d]? = some r → t.regs[d]? = some q → r.Agrees q
  capWords : s.capWords = t.capWords
  resetIn : s.resetIn = t.resetIn
  inProgress : s.inProgress = t.inProgress
  commandIn : s.commandIn = t.commandIn
  payloadIn : s.payloadIn = t.payloadIn
  responseOut : s.responseOut = t.responseOut
  payloadOut : s.payloadOut = t.payloadOut

end Sys2Proof.Machine
end

