-- ==== Sys2Proof/WellFormed.lean ====
section
/-!
DEFINITION. Which abstract commands a header can carry (R61, R63, R64): a signed operand fits 32 bits in
two's complement, a count fits 32 bits unsigned, a radix fits 6 bits unsigned. The machine gives every
command a meaning, well formed or not; only a well-formed one can be presented at the port.
-/
namespace Sys2Proof

/-- `n` is `sext_32` of some 32-bit field (R8, R63). -/
def fitsSigned (n : Int) : Bool := decide (-2 ^ 31 ≤ n ∧ n < 2 ^ 31)

/-- `n` is `zext_32` of some 32-bit field (R8, R63): a payload count. -/
def fitsCount (n : Nat) : Bool := decide (n < 2 ^ 32)

/-- `n` fits the 6-bit field `RADIX` (R64). Values outside 2 to 36 fit, and are refused when run. -/
def fitsRadix (n : Nat) : Bool := decide (n < 2 ^ 6)

/-- The command can be presented as one header and one payload. -/
def Instr.wellFormed : Instr → Bool
  | .new _ length => fitsSigned length
  | .get _ index => fitsSigned index
  | .set _ index _ => fitsSigned index
  | .setvalue _ words => fitsCount words.length
  | .weight _ => true
  | .not _ => true
  | .and _ _ => true
  | .or _ _ => true
  | .xor _ _ => true
  | .lshift _ n => fitsSigned n
  | .tostring _ radix => fitsRadix radix
  | .parse _ text radix => fitsCount text.length && fitsRadix radix

end Sys2Proof
end

