-- ==== Sys2Proof/Certificates/Slice0/Obligations.lean ====
section
/-!
DEFINITION. The statements for the provers. Each docstring names the rule of spec/ it formalises. A response
is written `⟨STATUS, REASON, VREG, DATA, INFO0, INFO1, TLEN⟩`, the order of R71. There is no flag, no program
counter and no memory beside the registers, so a frame says: the other registers, the receiver's other fields,
the input channels, the command in progress and the parameters stay.
A word count as a diagnostic value is written `countField n`: that is `n` below `2^32`, and no run reaches a
register of more words (NEW gives at most `2^26`, PARSE at most one a character); what it is above
(log 4) no statement says.
-/
open Sys2Proof Sys2Proof.Machine

/-! ## The encoding -/

/-- Decoding an encoded well-formed command gives it back, with every operand at every value its field admits,
and leaves the rest of the payload channel (R61 to R67). -/
def Obligations.DecodeUndoesEncode : Prop :=
  ∀ (i : Instr) (rest : List Word), i.wellFormed = true →
    decode (encode i).1 ((encode i).2 ++ rest) = .instr i rest

/-- What the decoder accepts is well formed and encodes to the same header and payload: no bit of a header is
ignored (R69: "no unused field is ignored"). -/
def Obligations.EncodeUndoesDecode : Prop :=
  ∀ (h : Header) (items : List Word) (i : Instr) (rest : List Word), decode h items = .instr i rest →
    i.wellFormed = true ∧ (encode i).1 = h ∧ (encode i).2 ++ rest = items

/-- The decoder and R68's match and mask table agree: a header that decodes, or that waits for its payload,
matches exactly one row, its command's; a header refused matches none (R68, R78). -/
def Obligations.DecoderAgreesWithOpcodeTable : Prop :=
  ∀ (h : Header) (items : List Word),
    (∀ i rest, decode h items = .instr i rest →
      (opcodeTable.filter fun row => row.covers h).map (·.op) = [i.op]) ∧
    (decode h items = .reject .shortPayload →
      ∃ row, opcodeTable.filter (fun row => row.covers h) = [row] ∧ row.op.hasPayload = true ∧
        items.length < (unpack h).arg.toNat) ∧
    (decode h items = .reject .reservedOpcode ∨ decode h items = .reject .nonZeroUnused →
      opcodeTable.filter (fun row => row.covers h) = [])

/-- A few headers of 95_test_vectors.md decode to the commands they stand for there. -/
def Obligations.SpecHeadersDecodeAsWritten : Prop :=
  decode 0x0000002800000001 [] = .instr (.new 0 40) [] ∧
  decode 0xFFFFFFFF00000002 [] = .instr (.get 0 (-1)) [] ∧
  decode 0x0000001F00040003 [] = .instr (.set 0 31 true) [] ∧
  decode 0x0000000200000014 [0xDEADBEEF, 0x01234567, 5] =
    .instr (.setvalue 1 [0xDEADBEEF, 0x01234567]) [5] ∧
  decode 0x0000000000000109 [] = .instr (.xor 0 1) [] ∧
  decode 0x800000000000000A [] = .instr (.lshift 0 (-2147483648)) [] ∧
  decode 0x000000000002400B [] = .instr (.tostring 0 36) [] ∧
  decode 0x000000030000A00C [0x31, 0x20, 0x30] = .instr (.parse 0 [0x31, 0x20, 0x30] 10) []

/-! ## Taking a command from the channels -/

/-- A step runs the decoded command: with nothing in its way, the first header on command-in and its payload
on payload-in, the step is `exec` of the decoded command on the state with both taken off the channels. -/
def Obligations.StepRunsTheDecodedCommand : Prop :=
  ∀ (s : State) (h : Header) (hs : List Header) (i : Instr) (rest : List Word),
    s.Ready → s.commandIn = h :: hs → decode h s.payloadIn = .instr i rest →
      step s = exec i { s with commandIn := hs, payloadIn := rest }

/-- A command in progress runs once the rest of its payload is there, and leaves items beyond it in the
channel (R77, R237). -/
def Obligations.StepResumesTheCommandInProgress : Prop :=
  ∀ (s : State) (p : Pending) (i : Instr) (rest : List Word),
    s.resetIn = false → s.inProgress = some p → p.items.length < payloadCount p.header →
    decode p.header (p.items ++ s.payloadIn) = .instr i rest →
      step s = exec i { s with inProgress := none, payloadIn := rest }

/-- With fewer payload items than `ARG` the BVU waits for the rest and gives no response (R237). That the step
takes what is there and keeps it with the command in progress, and that the wait is a next state, is the model's
reading: log 5 (DEDUCED). -/
def Obligations.ShortPayloadWaitsWithoutResponse : Prop :=
  (∀ (s : State) (h : Header) (hs : List Header),
    s.Ready → s.commandIn = h :: hs → s.payloadIn.length < payloadCount h →
      step s = .next { s with
        commandIn := hs, payloadIn := [], inProgress := some { header := h, items := s.payloadIn } }) ∧
  (∀ (s : State) (p : Pending),
    s.resetIn = false → s.inProgress = some p → p.items.length + s.payloadIn.length < payloadCount p.header →
      step s = .next { s with
        payloadIn := [], inProgress := some { header := p.header, items := p.items ++ s.payloadIn } })

/-- The framing of commands and payloads (R77): no header is accepted while an output waits; after a header
whose `OP` is SETVALUE or PARSE exactly `ARG` items are taken from payload-in before the one response, whatever
the outcome, and after any other header none; the items taken so far count; until the last item is taken no
register changes and no response is given. -/
def Obligations.PayloadIsTakenWhateverTheOutcome : Prop :=
  (∀ s t : State, s.resetIn = false → s.inProgress = none → (s.responseOut ≠ [] ∨ s.payloadOut ≠ []) →
    step s = .next t → t.commandIn = s.commandIn) ∧
  (∀ (s t : State) (h : Header) (hs : List Header),
    s.Ready → s.commandIn = h :: hs →
    (if (unpack h).op = 0x4 ∨ (unpack h).op = 0xC then (unpack h).arg.toNat else 0) ≤ s.payloadIn.length →
    step s = .next t →
      t.payloadIn =
        s.payloadIn.drop (if (unpack h).op = 0x4 ∨ (unpack h).op = 0xC then (unpack h).arg.toNat else 0) ∧
      t.commandIn = hs ∧ t.inProgress = none ∧ t.responseOut.length = 1) ∧
  (∀ (s t : State) (p : Pending), s.resetIn = false → s.inProgress = some p →
    ((unpack p.header).op = 0x4 ∨ (unpack p.header).op = 0xC) →
    p.items.length < (unpack p.header).arg.toNat →
    (unpack p.header).arg.toNat ≤ p.items.length + s.payloadIn.length → step s = .next t →
      t.payloadIn = s.payloadIn.drop ((unpack p.header).arg.toNat - p.items.length) ∧
      t.commandIn = s.commandIn ∧ t.inProgress = none ∧ t.responseOut.length = s.responseOut.length + 1) ∧
  (∀ (s t : State) (p : Pending), s.resetIn = false → step s = .next t → t.inProgress = some p →
    t.regs = s.regs ∧ t.responseOut = s.responseOut ∧ t.payloadOut = s.payloadOut)

/-- The BVU accepts a header only when the previous response and all of its characters have been taken: until
then a step changes nothing (R77, R238). That a step with no header there changes nothing either, and that such
a step is a next state, is the model's reading: log 5 (DEDUCED), after R216's "idle between commands". -/
def Obligations.NoHeaderBeforeOutputsAreTaken : Prop :=
  ∀ s : State, s.resetIn = false → s.inProgress = none →
    (s.responseOut ≠ [] ∨ s.payloadOut ≠ [] ∨ s.commandIn = []) → step s = .next s

/-- A reserved `OP` is refused with `ReservedEncoding`, consumes no payload and changes no register (R70). -/
def Obligations.ReservedOpcodeIsRefused : Prop :=
  ∀ (s : State) (h : Header) (hs : List Header), s.Ready → s.commandIn = h :: hs →
    ((unpack h).op = 0x0 ∨ (unpack h).op = 0xD ∨ (unpack h).op = 0xE ∨ (unpack h).op = 0xF) →
      step s = .next { s with commandIn := hs, responseOut := [⟨0xF, 0x7, 0, 0, 0, 0, 0⟩] }

/-- A header with the `OP` of a command and a non-zero bit in `RSV` or in a field the command does not use is
refused with `ReservedEncoding` and changes no register (R69). That the payload items its `OP` announces are
still taken is read from R77: log 11 (DEDUCED). -/
def Obligations.NonZeroUnusedFieldIsRefused : Prop :=
  ∀ (s : State) (h : Header) (hs : List Header), s.Ready → s.commandIn = h :: hs →
    1 ≤ (unpack h).op.toNat → (unpack h).op.toNat ≤ 12 →
    ((unpack h).rsv ≠ 0 ∨
      ((unpack h).vs ≠ 0 ∧ (unpack h).op ∉ [0x7#4, 0x8#4, 0x9#4]) ∨
      ((unpack h).radix ≠ 0 ∧ (unpack h).op ∉ [0xB#4, 0xC#4]) ∨
      ((unpack h).val ≠ 0 ∧ (unpack h).op ≠ 0x3#4) ∨
      ((unpack h).arg ≠ 0 ∧ (unpack h).op ∉ [0x1#4, 0x2#4, 0x3#4, 0x4#4, 0xA#4, 0xC#4])) →
    payloadCount h ≤ s.payloadIn.length →
      step s = .next { s with
        commandIn := hs
        payloadIn := s.payloadIn.drop (payloadCount h)
        responseOut := [⟨0xF, 0x7, 0, 0, 0, 0, 0⟩] }

/-! ## Reset -/

/-- While the reset input is asserted the BVU accepts nothing and sends nothing; every register becomes
unconstructed, a command in progress is abandoned and the channels are empty (R230, R231). That a step with the
input asserted is a next state is the model's reading: log 5 (DEDUCED). -/
def Obligations.ResetInputClearsTheMachine : Prop :=
  ∀ s : State, s.resetIn = true → ∃ t, step s = .next t ∧
    t.regs.length = s.regs.length ∧ (∀ r ∈ t.regs, r.valid = false) ∧ t.inProgress = none ∧
    t.commandIn = [] ∧ t.payloadIn = [] ∧ t.responseOut = [] ∧ t.payloadOut = [] ∧
    t.resetIn = true ∧ t.capWords = s.capWords

/-- The state after reset, for any parameters: every register unconstructed, no command in progress, all four
channels empty (R34, R231). Which parameters `State.reset` has is the model's choice (log 1). -/
def Obligations.ResetStateIsUnconstructed : Prop :=
  State.reset = State.resetWith Config.params ∧
  ∀ p : Params,
    (State.resetWith p).regs.length = p.nvec ∧ (∀ r ∈ (State.resetWith p).regs, r.valid = false) ∧
    (State.resetWith p).inProgress = none ∧ (State.resetWith p).commandIn = [] ∧
    (State.resetWith p).payloadIn = [] ∧ (State.resetWith p).responseOut = [] ∧
    (State.resetWith p).payloadOut = [] ∧ (State.resetWith p).resetIn = false

/-! ## The whole machine -/

/-- Every command produces exactly one response, whose fields are zero where R71 says so; a command that
returns the receiver for chaining names it in `VREG` when it ends `OK`, every other response has `VREG` 0
(R72). `TLEN` is stated for every text whose length a 32-bit field can show. -/
def Obligations.EveryCommandAnswersExactlyOnce : Prop :=
  ∀ (i : Instr) (s : State), ∃ (t : State) (resp : Response) (chars : List Byte),
    exec i s = .next t ∧ t.responseOut = s.responseOut ++ [resp] ∧ t.payloadOut = s.payloadOut ++ chars ∧
    resp.status ∈ [0x0#4, 0x1#4, 0x2#4, 0x3#4, 0x4#4, 0xF#4] ∧
    resp.reason.toNat ≤ 7 ∧ (resp.reason ≠ 0 ↔ resp.status = 0xF) ∧
    (resp.status = 0x0 ∨ resp.status = 0xF → resp.info0 = 0 ∧ resp.info1 = 0) ∧
    resp.vreg = (if resp.status = 0x0 ∧ i.returnsReceiver = true then i.receiver else 0) ∧
    (resp.data ≠ 0 → resp.status = 0x0 ∧ ∃ vd, i = .weight vd ∨ ∃ index, i = .get vd index) ∧
    (chars.length < 2 ^ 32 → resp.tlen = BitVec.ofNat 32 chars.length) ∧
    (chars ≠ [] → resp.status = 0x0 ∧ ∃ vd radix, i = .tostring vd radix)

/-- When the response is an error or a refusal, every register is as before (R203): for a command, and for a
step, a refused header included. -/
def Obligations.FailureChangesNoRegister : Prop :=
  (∀ (i : Instr) (s t : State) (resp : Response), exec i s = .next t →
    t.responseOut = s.responseOut ++ [resp] → resp.status ≠ 0 →
      t = { s with responseOut := s.responseOut ++ [resp] }) ∧
  (∀ (s t : State) (resp : Response), s.resetIn = false → step s = .next t →
    t.responseOut = s.responseOut ++ [resp] → resp.status ≠ 0 → t.regs = s.regs)

/-- Which command raises which error, exactly when, and with which diagnostic values (R200, R201). -/
def Obligations.ErrorKindsAreRaisedExactly : Prop :=
  ∀ (i : Instr) (s t : State) (resp : Response), exec i s = .next t →
    t.responseOut = s.responseOut ++ [resp] →
    (resp.status = 0x1 ↔ ∃ vd n, i = .new vd n ∧ vd.toNat < s.regs.length ∧ n < 0) ∧
    (resp.status = 0x2 ↔ ∃ vd r index, s.Holds vd r ∧ (i = .get vd index ∨ ∃ b, i = .set vd index b) ∧
      (index < 0 ∨ (r.length : Int) ≤ index)) ∧
    (resp.status = 0x3 ↔
      (∃ vd r ws, s.Holds vd r ∧ i = .setvalue vd ws ∧ ws.length ≠ r.wc) ∨
      (∃ vd vs r o, s.Holds vd r ∧ s.Holds vs o ∧ (i = .and vd vs ∨ i = .or vd vs ∨ i = .xor vd vs) ∧
        r.wc ≠ o.wc)) ∧
    (resp.status = 0x4 ↔ ∃ vd r n, s.Holds vd r ∧ i = .lshift vd n ∧ 0 ≤ n ∧ 32 * (r.wc : Int) - 1 < n) ∧
    (∀ vd n, i = .new vd n → resp.status = 0x1 → resp.info0 = BitVec.ofInt 32 n ∧ resp.info1 = 0) ∧
    (∀ vd index, (i = .get vd index ∨ ∃ b, i = .set vd index b) → resp.status = 0x2 →
      resp.info0 = BitVec.ofInt 32 index ∧ resp.info1 = 0) ∧
    (∀ vd ws r, i = .setvalue vd ws → s.Holds vd r → resp.status = 0x3 →
      resp.info0 = countField r.wc ∧ resp.info1 = countField ws.length) ∧
    (∀ vd vs r o, (i = .and vd vs ∨ i = .or vd vs ∨ i = .xor vd vs) → s.Holds vd r → s.Holds vs o →
      resp.status = 0x3 → resp.info0 = countField r.wc ∧ resp.info1 = countField o.wc) ∧
    (∀ vd n, i = .lshift vd n → resp.status = 0x4 → resp.info0 = BitVec.ofInt 32 n ∧ resp.info1 = 0)

/-- A used register number of `NVEC` or more is refused with `BadRegister`, before any other check of the
command; a non-zero `VS` of the other nine commands is not a command at all (R205). -/
def Obligations.BadRegisterIsRefused : Prop :=
  (∀ (i : Instr) (s : State),
    (s.regs.length ≤ i.receiver.toNat ∨ ∃ vs, i.other = some vs ∧ s.regs.length ≤ vs.toNat) →
      exec i s = .next { s with responseOut := s.responseOut ++ [⟨0xF, 0x2, 0, 0, 0, 0, 0⟩] }) ∧
  (∀ (h : Header) (items : List Word), 1 ≤ (unpack h).op.toNat → (unpack h).op.toNat ≤ 12 →
    (unpack h).op ∉ [0x7#4, 0x8#4, 0x9#4] → (unpack h).vs ≠ 0 → decode h items = .reject .nonZeroUnused)

/-- A command other than NEW and PARSE that names an unconstructed register is refused with `NotConstructed`,
before its own checks and whatever the register contains; NEW and PARSE never are (R206). -/
def Obligations.UnconstructedRegisterIsRefused : Prop :=
  (∀ (i : Instr) (s : State) (r : VReg), i.constructs = false → s.regs[i.receiver.toNat]? = some r →
    (∀ vs, i.other = some vs → vs.toNat < s.regs.length) →
    (r.valid = false ∨ ∃ vs o, i.other = some vs ∧ s.regs[vs.toNat]? = some o ∧ o.valid = false) →
      exec i s = .next { s with responseOut := s.responseOut ++ [⟨0xF, 0x1, 0, 0, 0, 0, 0⟩] }) ∧
  (∀ (i : Instr) (s t : State) (resp : Response), i.constructs = true → exec i s = .next t →
    t.responseOut = s.responseOut ++ [resp] → resp.reason ≠ 0x1)

/-- GET, WEIGHT and TOSTRING change no state but the outputs, and twice in a row each gives the same response
and text (R47; the repetition is read off R47's "idempotent"). -/
def Obligations.ReadingCommandsChangeNoState : Prop :=
  ∀ (i : Instr) (s t u : State) (vd : RegNum),
    (i = .weight vd ∨ (∃ index, i = .get vd index) ∨ ∃ radix, i = .tostring vd radix) →
    exec i s = .next t → exec i t = .next u →
      t.regs = s.regs ∧ s.KeepsRest t ∧
      ∃ resp chars, t.responseOut = s.responseOut ++ [resp] ∧ t.payloadOut = s.payloadOut ++ chars ∧
        u.responseOut = t.responseOut ++ [resp] ∧ u.payloadOut = t.payloadOut ++ chars ∧
        ((∀ radix, i ≠ .tostring vd radix) → chars = [])

/-- The frame of SET, SETVALUE, NOT, AND, OR, XOR and LSHIFT: only the receiver's words can change (R22, R27,
R28, R140). -/
def Obligations.InPlaceCommandsWriteOnlyReceiverWords : Prop :=
  ∀ (i : Instr) (s t : State) (vd : RegNum),
    ((∃ index b, i = .set vd index b) ∨ (∃ ws, i = .setvalue vd ws) ∨ i = .not vd ∨
      (∃ vs, i = .and vd vs ∨ i = .or vd vs ∨ i = .xor vd vs) ∨ ∃ n, i = .lshift vd n) →
    exec i s = .next t →
      s.KeepsRest t ∧ t.payloadOut = s.payloadOut ∧ t.regs.length = s.regs.length ∧
      (∀ d : Nat, d ≠ vd.toNat → t.regs[d]? = s.regs[d]?) ∧
      (∀ r, s.regs[vd.toNat]? = some r → ∃ q, t.regs[vd.toNat]? = some q ∧
        q.valid = r.valid ∧ q.length = r.length)

/-- The frame of NEW and PARSE: only the receiver can change (R27, R28). -/
def Obligations.ConstructionsWriteOnlyTheReceiver : Prop :=
  ∀ (i : Instr) (s t : State) (vd : RegNum),
    ((∃ n, i = .new vd n) ∨ ∃ text radix, i = .parse vd text radix) →
    exec i s = .next t →
      s.KeepsRest t ∧ t.payloadOut = s.payloadOut ∧ t.regs.length = s.regs.length ∧
      ∀ d : Nat, d ≠ vd.toNat → t.regs[d]? = s.regs[d]?

/-- `length` and `valid` are written only by a NEW or PARSE that ends `OK`, and no command ends an instance
without constructing another (R22, R24). -/
def Obligations.OnlyConstructionWritesLengthAndValid : Prop :=
  ∀ (i : Instr) (s t : State), exec i s = .next t → ∀ (d : Nat) (r : VReg), s.regs[d]? = some r →
    ∃ q, t.regs[d]? = some q ∧ (r.valid = true → q.valid = true) ∧
      ((q.valid = r.valid ∧ q.length = r.length) ∨
        (i.constructs = true ∧ d = i.receiver.toNat ∧ q.valid = true ∧
          t.responseOut = s.responseOut ++ [⟨0x0, 0, i.receiver, 0, 0, 0, 0⟩]))

/-- A step always answers a next state. That an error or a refusal is a next state with a response is log 7
(DEDUCED, after R204 and R215); that a wait for the host is a next state is log 5 (DEDUCED; the spec lists the
short payload as stuck, U15). -/
def Obligations.MachineNeverStops : Prop := ∀ s : State, ∃ t, step s = .next t

/-- The parameters never change: the number of registers and `CAP_WORDS` (R6). -/
def Obligations.ParametersNeverChange : Prop :=
  ∀ s t : State, step s = .next t → t.regs.length = s.regs.length ∧ t.capWords = s.capWords

/-- The invariant holds after reset, for every legal choice of the parameters (R6, R23, R34). -/
def Obligations.ResetMeetsInvariant : Prop := ∀ p : Params, p.legal = true → (State.resetWith p).inv = true

/-- Every step keeps the invariant: constructed registers hold exactly `ceil(length / 32)` words, within
`CAP_WORDS`; the parameters stay legal; the ports stay in order; while the reset input is asserted the machine is
as reset leaves it (R23, R77, R102, R185, R230). -/
def Obligations.StepKeepsInvariant : Prop :=
  ∀ s t : State, s.inv = true → step s = .next t → t.inv = true

/-- No host action but the reset input reaches a register or the command in progress (R239), and none adds a
response or a character; the input held released changes nothing; every action keeps the invariant. That the
actions are functions on the state which land between steps is the model's choice: log 10 (DESIGN CHOICE). -/
def Obligations.HostActionsReachNoRegister : Prop :=
  ∀ (a : HostAction) (s : State),
    ((∀ asserted, a ≠ .driveReset asserted) →
      (hostAct a s).regs = s.regs ∧ (hostAct a s).inProgress = s.inProgress ∧
      (hostAct a s).responseOut <:+ s.responseOut ∧ (hostAct a s).payloadOut <:+ s.payloadOut) ∧
    (a = .driveReset false → s.resetIn = false → hostAct a s = s) ∧
    (s.inv = true → (hostAct a s).inv = true)

/-- Nothing unspecified can be observed: states that differ only in the contents of unconstructed registers
give the same responses and texts, and still differ only so after the step (R34, R232). -/
def Obligations.UnspecifiedContentsAreNeverObserved : Prop :=
  ∀ s t u : State, s.Agrees t → step s = .next u → ∃ w, step t = .next w ∧ u.Agrees w

/-- WEIGHT, NOT, AND, OR, XOR, LSHIFT, TOSTRING and SETVALUE depend on the receiver's `length` only through
`ceil(length / 32)`: with another length of as many words the answers and the words are the same (R27). -/
def Obligations.LengthMattersOnlyThroughWordCount : Prop :=
  ∀ (i : Instr) (s t : State) (r : VReg) (n : Nat),
    i.constructs = false → (∀ vd index, i ≠ .get vd index) → (∀ vd index b, i ≠ .set vd index b) →
    s.Holds i.receiver r → (n + 31) / 32 = r.wc → exec i s = .next t →
      ∃ u q, exec i { s with regs := s.regs.set i.receiver.toNat { r with length := n } } = .next u ∧
        u.responseOut = t.responseOut ∧ u.payloadOut = t.payloadOut ∧ t.Holds i.receiver q ∧
        u.Holds i.receiver { q with length := n }

/-- A run is over exactly when every command has its answer, one response each (R71, R240); with no payload short
it is over; a command whose payload stays short is accepted and not answered, so the run is not over and nothing
after it is issued (R236, R237, R240). Items the host sends beyond a count are the next payload's first (R237).
That a step takes a whole command, and what a wait keeps, is log 5 (DEDUCED). -/
def Obligations.RunAnswersEveryCommandOnce : Prop :=
  (∀ (cs : List Command) (s : State) (record : RunRecord), s.settled = true →
    runCommands cs s = .next record →
      (record.isOver = true ↔ record.answers.length = cs.length) ∧
      ∀ a ∈ record.answers, a.responses.length = 1) ∧
  (∀ (cs : List Command) (s : State), s.settled = true →
    (∀ c ∈ cs, payloadCount c.header ≤ c.payload.length) →
      ∃ record, runCommands cs s = .next record ∧ record.isOver = true) ∧
  (∀ (c : Command) (cs : List Command) (s : State), s.settled = true →
    s.payloadIn.length + c.payload.length < payloadCount c.header →
      ∃ record, runCommands (c :: cs) s = .next record ∧ record.isOver = false ∧ record.answers = [] ∧
        record.final.regs = s.regs ∧
        record.final.inProgress = some { header := c.header, items := s.payloadIn ++ c.payload }) ∧
  (∀ (c : Command) (s t : State), s.settled = true → issue c s = .next t →
    payloadCount c.header ≤ s.payloadIn.length + c.payload.length →
      t.payloadIn = (s.payloadIn ++ c.payload).drop (payloadCount c.header))

/-! ## Storage and indexed access -/

/-- `NEW vd, length` (R100, R102, R103): its encoding, `InvalidLength`, `Capacity`, and the fresh vector of
zero words, whatever the register held. -/
def Obligations.NewConstructsZeroWords : Prop :=
  (∀ (vd : RegNum) (a : BitVec 32) (items : List Word),
    decode (pack ⟨0x1, vd, 0, 0, 0, 0, a⟩) items = .instr (.new vd a.toInt) items) ∧
  (∀ (s : State) (vd : RegNum) (n : Int), vd.toNat < s.regs.length → n < 0 →
    exec (.new vd n) s =
      .next { s with responseOut := s.responseOut ++ [⟨0x1, 0, 0, 0, BitVec.ofInt 32 n, 0, 0⟩] }) ∧
  (∀ (s : State) (vd : RegNum) (n c : Nat), vd.toNat < s.regs.length → s.capWords = some c →
    c < (n + 31) / 32 →
    exec (.new vd n) s = .next { s with responseOut := s.responseOut ++ [⟨0xF, 0x6, 0, 0, 0, 0, 0⟩] }) ∧
  (∀ (s : State) (vd : RegNum) (n : Nat), vd.toNat < s.regs.length →
    (∀ c, s.capWords = some c → (n + 31) / 32 ≤ c) →
    exec (.new vd n) s = .next { s with
      regs := s.regs.set vd.toNat
        { valid := true, length := n, words := List.replicate ((n + 31) / 32) 0 }
      responseOut := s.responseOut ++ [⟨0x0, 0, vd, 0, 0, 0, 0⟩] })

/-- `GET vd, index` (R104, R105): its encoding, `IndexOutOfRange` against `length`, and one bit as `DATA`. -/
def Obligations.GetReadsOneLogicalBit : Prop :=
  (∀ (vd : RegNum) (a : BitVec 32) (items : List Word),
    decode (pack ⟨0x2, vd, 0, 0, 0, 0, a⟩) items = .instr (.get vd a.toInt) items) ∧
  (∀ (s : State) (vd : RegNum) (r : VReg) (index : Int), s.Holds vd r →
    (index < 0 ∨ (r.length : Int) ≤ index) →
    exec (.get vd index) s =
      .next { s with responseOut := s.responseOut ++ [⟨0x2, 0, 0, 0, BitVec.ofInt 32 index, 0, 0⟩] }) ∧
  (∀ (s : State) (vd : RegNum) (r : VReg) (i : Nat), s.Holds vd r → i < r.length →
    exec (.get vd i) s = .next { s with
      responseOut := s.responseOut ++
        [⟨0x0, 0, 0, if (r.words.getD (i / 32) 0).getLsbD (i % 32) then 1 else 0, 0, 0, 0⟩] })

/-- `SET vd, index, value` (R106, R107): its encoding, `IndexOutOfRange`, and the storage with that one bit
written, every other bit of it, logical or padding, as before. -/
def Obligations.SetWritesOneLogicalBit : Prop :=
  (∀ (vd : RegNum) (v : BitVec 1) (a : BitVec 32) (items : List Word),
    decode (pack ⟨0x3, vd, 0, 0, v, 0, a⟩) items = .instr (.set vd a.toInt (v == 1)) items) ∧
  (∀ (s : State) (vd : RegNum) (r : VReg) (index : Int) (b : Bool), s.Holds vd r →
    (index < 0 ∨ (r.length : Int) ≤ index) →
    exec (.set vd index b) s =
      .next { s with responseOut := s.responseOut ++ [⟨0x2, 0, 0, 0, BitVec.ofInt 32 index, 0, 0⟩] }) ∧
  (∀ (s : State) (vd : RegNum) (r : VReg) (i : Nat) (b : Bool), s.Holds vd r → r.sound = true →
    i < r.length →
    ∃ ws, exec (.set vd i b) s = .next { s with
        regs := s.regs.set vd.toNat { r with words := ws }
        responseOut := s.responseOut ++ [⟨0x0, 0, 0, 0, 0, 0, 0⟩] } ∧
      r.HasBits ws fun j => if j = i then b else r.bit j)

/-- After an `OK` SET, GET of that index returns the value; every other bit of the vector, logical or padding,
has the value it had, GET of another logical bit says so, `length` and every other register are unchanged
(R108). -/
def Obligations.GetAfterSetReadsTheValue : Prop :=
  ∀ (s t : State) (vd : RegNum) (r : VReg) (i : Nat) (b : Bool), s.Holds vd r → r.sound = true →
    i < r.length → exec (.set vd i b) s = .next t →
      (∀ j, j < r.length → exec (.get vd j) t = .next { t with
        responseOut := t.responseOut ++
          [⟨0x0, 0, 0, if (if j = i then b else r.bit j) then 1 else 0, 0, 0, 0⟩] }) ∧
      (∀ d : Nat, d ≠ vd.toNat → t.regs[d]? = s.regs[d]?) ∧
      ∃ q, t.Holds vd q ∧ q.length = r.length ∧ r.HasBits q.words fun j => if j = i then b else r.bit j

/-- `SETVALUE vd, words` (R109): its encoding and payload, `LengthMismatch` with both counts, and the
storage replaced by exactly the words supplied, padding bits included. -/
def Obligations.SetvalueReplacesEveryWord : Prop :=
  (∀ (vd : RegNum) (ws rest : List Word), ws.length < 2 ^ 32 →
    decode (pack ⟨0x4, vd, 0, 0, 0, 0, BitVec.ofNat 32 ws.length⟩) (ws ++ rest) =
      .instr (.setvalue vd ws) rest) ∧
  (∀ (s : State) (vd : RegNum) (r : VReg) (ws : List Word), s.Holds vd r → ws.length ≠ r.wc →
    exec (.setvalue vd ws) s = .next { s with
      responseOut := s.responseOut ++ [⟨0x3, 0, 0, 0, countField r.wc, countField ws.length, 0⟩] }) ∧
  (∀ (s : State) (vd : RegNum) (r : VReg) (ws : List Word), s.Holds vd r → ws.length = r.wc →
    exec (.setvalue vd ws) s = .next { s with
      regs := s.regs.set vd.toNat { r with words := ws }
      responseOut := s.responseOut ++ [⟨0x0, 0, 0, 0, 0, 0, 0⟩] })

/-- `WEIGHT vd` (R112, R113): its encoding, and `DATA` the number of 1 bits over every bit index of the
storage, padding bits included, wherever a 32-bit field can show it (R115: always, under a bounded
`CAP_WORDS`). -/
def Obligations.WeightCountsEveryStorageBit : Prop :=
  (∀ (vd : RegNum) (items : List Word),
    decode (pack ⟨0x5, vd, 0, 0, 0, 0, 0⟩) items = .instr (.weight vd) items) ∧
  (∀ (s : State) (vd : RegNum) (r : VReg), s.Holds vd r →
    ∃ data : BitVec 32,
      exec (.weight vd) s = .next { s with
        responseOut := s.responseOut ++ [⟨0x0, 0, 0, data, 0, 0, 0⟩] } ∧
      (r.ones < 2 ^ 32 → data = BitVec.ofNat 32 r.ones))

/-- Under a bounded `CAP_WORDS` WEIGHT's count fits: `DATA`, read as unsigned, is the number of 1 bits, at most
`32 * wc <= 32 * CAP_WORDS <= 2^31`. An inference of the spec's own (40_storage_indexed_access.md, "Range of
the result"). -/
def Obligations.WeightFitsItsField : Prop :=
  ∀ (s : State) (vd : RegNum) (r : VReg) (c : Nat), s.inv = true → s.Holds vd r → s.capWords = some c →
    ∃ data : BitVec 32,
      exec (.weight vd) s = .next { s with
        responseOut := s.responseOut ++ [⟨0x0, 0, 0, data, 0, 0, 0⟩] } ∧
      data.toNat = r.ones ∧ r.ones ≤ 32 * r.wc ∧ 32 * r.wc ≤ 32 * c ∧ 32 * c ≤ 2 ^ 31

/-- Setting `k` distinct clear logical bits raises the weight by `k`; a fresh vector has weight 0 (R114's first
two properties). -/
def Obligations.WeightAfterSettingDistinctBits : Prop :=
  (∀ (s t : State) (vd : RegNum) (n : Nat), vd.toNat < s.regs.length →
    (∀ c, s.capWords = some c → (n + 31) / 32 ≤ c) → exec (.new vd n) s = .next t →
    exec (.weight vd) t =
      .next { t with responseOut := t.responseOut ++ [⟨0x0, 0, 0, 0, 0, 0, 0⟩] }) ∧
  (∀ (s : State) (vd : RegNum) (r : VReg) (indices : List Nat), s.Holds vd r → r.sound = true →
    indices.Nodup → (∀ i ∈ indices, i < r.length ∧ r.bit i = false) →
    ∃ t q, execAll (indices.map fun i => .set vd i true) s = .next t ∧ t.Holds vd q ∧
      q.ones = r.ones + indices.length)

/-- The SWAR sequence with the usual constants computes `popcount`, the number of 1 bits of a word (R117,
R8). -/
def Obligations.SwarSequenceIsPopcount : Prop :=
  ∀ x : Word, swarPopcount x = (List.range 32).countP fun k => x.getLsbD k

/-! ## Bitwise algebra -/

/-- `NOT vd` (R141): its encoding, and every bit of the storage complemented, padding bits included. -/
def Obligations.NotComplementsEveryBit : Prop :=
  (∀ (vd : RegNum) (items : List Word),
    decode (pack ⟨0x6, vd, 0, 0, 0, 0, 0⟩) items = .instr (.not vd) items) ∧
  (∀ (s : State) (vd : RegNum) (r : VReg), s.Holds vd r →
    ∃ ws, exec (.not vd) s = .next { s with
        regs := s.regs.set vd.toNat { r with words := ws }
        responseOut := s.responseOut ++ [⟨0x0, 0, vd, 0, 0, 0, 0⟩] } ∧
      r.HasBits ws fun j => !r.bit j)

/-- NOT twice restores the registers exactly; after one NOT the weight is the capacity minus the weight before
(41_bitwise_algebra.md, the rule after NOT's; its second sentence is the spec's own inference). -/
def Obligations.NotTwiceIsTheIdentity : Prop :=
  ∀ (s t u : State) (vd : RegNum) (r : VReg), s.Holds vd r → r.sound = true →
    exec (.not vd) s = .next t → exec (.not vd) t = .next u →
      u.regs = s.regs ∧ ∃ q, t.Holds vd q ∧ q.ones + r.ones = 32 * r.wc

/-- `AND vd, vs` (R142): its encoding, `LengthMismatch` on word counts, and each bit of the receiver ANDed with
the other's bit of the same index. -/
def Obligations.AndCombinesBitByBit : Prop :=
  (∀ (vd vs : RegNum) (items : List Word),
    decode (pack ⟨0x7, vd, vs, 0, 0, 0, 0⟩) items = .instr (.and vd vs) items) ∧
  (∀ (s : State) (vd vs : RegNum) (r o : VReg), s.Holds vd r → s.Holds vs o → r.wc ≠ o.wc →
    exec (.and vd vs) s = .next { s with
      responseOut := s.responseOut ++ [⟨0x3, 0, 0, 0, countField r.wc, countField o.wc, 0⟩] }) ∧
  (∀ (s : State) (vd vs : RegNum) (r o : VReg), s.Holds vd r → s.Holds vs o → r.sound = true →
    o.sound = true → r.wc = o.wc →
    ∃ ws, exec (.and vd vs) s = .next { s with
        regs := s.regs.set vd.toNat { r with words := ws }
        responseOut := s.responseOut ++ [⟨0x0, 0, vd, 0, 0, 0, 0⟩] } ∧
      r.HasBits ws fun j => r.bit j && o.bit j)

/-- `OR vd, vs` (R143), as for AND. -/
def Obligations.OrCombinesBitByBit : Prop :=
  (∀ (vd vs : RegNum) (items : List Word),
    decode (pack ⟨0x8, vd, vs, 0, 0, 0, 0⟩) items = .instr (.or vd vs) items) ∧
  (∀ (s : State) (vd vs : RegNum) (r o : VReg), s.Holds vd r → s.Holds vs o → r.wc ≠ o.wc →
    exec (.or vd vs) s = .next { s with
      responseOut := s.responseOut ++ [⟨0x3, 0, 0, 0, countField r.wc, countField o.wc, 0⟩] }) ∧
  (∀ (s : State) (vd vs : RegNum) (r o : VReg), s.Holds vd r → s.Holds vs o → r.sound = true →
    o.sound = true → r.wc = o.wc →
    ∃ ws, exec (.or vd vs) s = .next { s with
        regs := s.regs.set vd.toNat { r with words := ws }
        responseOut := s.responseOut ++ [⟨0x0, 0, vd, 0, 0, 0, 0⟩] } ∧
      r.HasBits ws fun j => r.bit j || o.bit j)

/-- `XOR vd, vs` (R144), as for AND. -/
def Obligations.XorCombinesBitByBit : Prop :=
  (∀ (vd vs : RegNum) (items : List Word),
    decode (pack ⟨0x9, vd, vs, 0, 0, 0, 0⟩) items = .instr (.xor vd vs) items) ∧
  (∀ (s : State) (vd vs : RegNum) (r o : VReg), s.Holds vd r → s.Holds vs o → r.wc ≠ o.wc →
    exec (.xor vd vs) s = .next { s with
      responseOut := s.responseOut ++ [⟨0x3, 0, 0, 0, countField r.wc, countField o.wc, 0⟩] }) ∧
  (∀ (s : State) (vd vs : RegNum) (r o : VReg), s.Holds vd r → s.Holds vs o → r.sound = true →
    o.sound = true → r.wc = o.wc →
    ∃ ws, exec (.xor vd vs) s = .next { s with
        regs := s.regs.set vd.toNat { r with words := ws }
        responseOut := s.responseOut ++ [⟨0x0, 0, vd, 0, 0, 0, 0⟩] } ∧
      r.HasBits ws fun j => r.bit j ^^ o.bit j)

/-- The check of AND, OR and XOR is on word counts, not on lengths: mismatched counts always fail and leave
every register as it was; equal counts always succeed, whatever the lengths, and the receiver keeps its length
and the other register is not written (R145, R146). -/
def Obligations.BinaryCheckIsOnWordCounts : Prop :=
  ∀ (i : Instr) (s : State) (vd vs : RegNum) (r o : VReg),
    (i = .and vd vs ∨ i = .or vd vs ∨ i = .xor vd vs) → s.Holds vd r → s.Holds vs o →
    (r.wc ≠ o.wc → exec i s = .next { s with
      responseOut := s.responseOut ++ [⟨0x3, 0, 0, 0, countField r.wc, countField o.wc, 0⟩] }) ∧
    (r.wc = o.wc → ∃ t q, exec i s = .next t ∧
      t.responseOut = s.responseOut ++ [⟨0x0, 0, vd, 0, 0, 0, 0⟩] ∧
      t.Holds vd q ∧ q.length = r.length ∧ (vs ≠ vd → t.Holds vs o))

/-- A register named twice: AND and OR leave it as it is, XOR makes every word zero, padding bits included.
An inference and decision of the spec's own (41_bitwise_algebra.md, "`vd = vs` is allowed"). -/
def Obligations.SameRegisterTwice : Prop :=
  ∀ (s : State) (d : RegNum) (r : VReg), s.Holds d r →
    exec (.and d d) s = .next { s with responseOut := s.responseOut ++ [⟨0x0, 0, d, 0, 0, 0, 0⟩] } ∧
    exec (.or d d) s = .next { s with responseOut := s.responseOut ++ [⟨0x0, 0, d, 0, 0, 0, 0⟩] } ∧
    exec (.xor d d) s = .next { s with
      regs := s.regs.set d.toNat { r with words := List.replicate r.words.length 0 }
      responseOut := s.responseOut ++ [⟨0x0, 0, d, 0, 0, 0, 0⟩] }

/-! ## Left shift -/

/-- `LSHIFT vd, n` (R160, R162, R165): its encoding, `BadOperand`, `ShiftOverflow`, and every bit of the
storage moved `n` places up, zeros at the bottom. -/
def Obligations.LshiftMovesEveryBit : Prop :=
  (∀ (vd : RegNum) (a : BitVec 32) (items : List Word),
    decode (pack ⟨0xA, vd, 0, 0, 0, 0, a⟩) items = .instr (.lshift vd a.toInt) items) ∧
  (∀ (s : State) (vd : RegNum) (r : VReg) (n : Int), s.Holds vd r → n < 0 →
    exec (.lshift vd n) s = .next { s with responseOut := s.responseOut ++ [⟨0xF, 0x5, 0, 0, 0, 0, 0⟩] }) ∧
  (∀ (s : State) (vd : RegNum) (r : VReg) (n : Nat), s.Holds vd r → 32 * r.wc ≤ n →
    exec (.lshift vd n) s =
      .next { s with responseOut := s.responseOut ++ [⟨0x4, 0, 0, 0, BitVec.ofNat 32 n, 0, 0⟩] }) ∧
  (∀ (s : State) (vd : RegNum) (r : VReg) (n : Nat), s.Holds vd r → r.sound = true → n < 32 * r.wc →
    ∃ ws, exec (.lshift vd n) s = .next { s with
        regs := s.regs.set vd.toNat { r with words := ws }
        responseOut := s.responseOut ++ [⟨0x0, 0, vd, 0, 0, 0, 0⟩] } ∧
      r.HasBits ws fun j => decide (n ≤ j) && r.bit (j - n))

/-- The word algorithm computes the shift of one big unsigned integer: with `V` the value of the whole array,
the new words are the base-`2^32` digits of `(V * 2^n) mod 2^(32 C)` (R161). -/
def Obligations.LshiftIsTheBigIntegerShift : Prop :=
  ∀ (s : State) (vd : RegNum) (r : VReg) (n : Nat), s.Holds vd r → r.sound = true → n < 32 * r.wc →
    ∃ ws, exec (.lshift vd n) s = .next { s with
        regs := s.regs.set vd.toNat { r with words := ws }
        responseOut := s.responseOut ++ [⟨0x0, 0, vd, 0, 0, 0, 0⟩] } ∧
      ws.length = r.words.length ∧ vectorValue ws = vectorValue r.words * 2 ^ n % 2 ^ (32 * r.wc)

/-- LSHIFT by 0 is the identity on a register with words; on a register with no words every amount of 0 or
more is `ShiftOverflow`, 0 included (R166, R167). -/
def Obligations.LshiftByZero : Prop :=
  (∀ (s : State) (vd : RegNum) (r : VReg), s.Holds vd r → r.sound = true → 1 ≤ r.wc →
    exec (.lshift vd 0) s = .next { s with responseOut := s.responseOut ++ [⟨0x0, 0, vd, 0, 0, 0, 0⟩] }) ∧
  (∀ (s : State) (vd : RegNum) (r : VReg) (n : Nat), s.Holds vd r → r.wc = 0 →
    exec (.lshift vd n) s =
      .next { s with responseOut := s.responseOut ++ [⟨0x4, 0, 0, 0, BitVec.ofNat 32 n, 0, 0⟩] })

/-! ## Text -/

/-- `TOSTRING vd, radix` (R170 to R174, R176): its encoding, `BadRadix`, and the text: one token a word, the
most significant word's first, single spaces between, each token exactly the pad width of digits that spell
the word. -/
def Obligations.TostringWritesFixedWidthTokens : Prop :=
  (∀ (vd : RegNum) (x : BitVec 6) (items : List Word),
    decode (pack ⟨0xB, vd, 0, x, 0, 0, 0⟩) items = .instr (.tostring vd x.toNat) items) ∧
  (∀ (s : State) (vd : RegNum) (r : VReg) (radix : Nat), s.Holds vd r → (radix < 2 ∨ 36 < radix) →
    exec (.tostring vd radix) s =
      .next { s with responseOut := s.responseOut ++ [⟨0xF, 0x3, 0, 0, 0, 0, 0⟩] }) ∧
  (∀ (s : State) (vd : RegNum) (r : VReg) (radix w : Nat), s.Holds vd r → 2 ≤ radix → radix ≤ 36 →
    IsPadWidth radix w →
    ∃ (toks : List (List Byte)) (tlen : BitVec 32),
      exec (.tostring vd radix) s = .next { s with
        responseOut := s.responseOut ++ [⟨0x0, 0, 0, 0, 0, 0, tlen⟩]
        payloadOut := s.payloadOut ++ List.intercalate [0x20#8] toks } ∧
      ((List.intercalate [0x20#8] toks).length < 2 ^ 32 →
        tlen = BitVec.ofNat 32 (List.intercalate [0x20#8] toks).length) ∧
      toks.length = r.words.length ∧
      ∀ (k : Nat) (x : Word), r.words[k]? = some x → ∃ tok, toks[r.words.length - 1 - k]? = some tok ∧
        tok.length = w ∧ Spells radix (tok.map (·.toNat)) x.toNat)

/-- The text of `C` words has `C * w(radix) + (C - 1)` characters, none for no words. An inference of the
spec's own (43_text_serialization.md, "Length of the text" and the rule on `word_count = 0`). -/
def Obligations.TextLengthIsFixed : Prop :=
  ∀ (s t : State) (vd : RegNum) (r : VReg) (radix w : Nat) (text : List Byte), s.Holds vd r → 2 ≤ radix →
    radix ≤ 36 → IsPadWidth radix w → exec (.tostring vd radix) s = .next t →
    t.payloadOut = s.payloadOut ++ text →
      text.length = r.words.length * w + (r.words.length - 1)

/-- `PARSE vd, text, radix` (R181, R182, R184, R188): its encoding and payload, and, for a text of tokens that
each spell a number below `2^32` in the radix, the new vector of 32 bits a token, the last token its word 0,
whatever the register held; the empty text gives no words. That the empty text has no tokens is an inference of
the spec's own (R180, "That the empty text has zero tokens, and not one empty token", D17). -/
def Obligations.ParseBuildsTheSpelledWords : Prop :=
  (∀ (vd : RegNum) (x : BitVec 6) (text rest : List Word), text.length < 2 ^ 32 →
    decode (pack ⟨0xC, vd, 0, x, 0, 0, BitVec.ofNat 32 text.length⟩) (text ++ rest) =
      .instr (.parse vd text x.toNat) rest) ∧
  (∀ (s : State) (vd : RegNum) (radix : Nat) (toks : List (List Word)) (xs : List Word),
    vd.toNat < s.regs.length → 2 ≤ radix → radix ≤ 36 →
    (∀ c, s.capWords = some c → toks.length ≤ c) → toks.length = xs.length →
    (∀ (k : Nat) (tok : List Word) (x : Word), toks[k]? = some tok → xs[k]? = some x →
      tok ≠ [] ∧ Spells radix (tok.map (·.toNat)) x.toNat) →
    exec (.parse vd (List.intercalate [0x20#32] toks) radix) s = .next { s with
      regs := s.regs.set vd.toNat { valid := true, length := 32 * xs.length, words := xs.reverse }
      responseOut := s.responseOut ++ [⟨0x0, 0, vd, 0, 0, 0, 0⟩] })

/-- What PARSE refuses, in this order (R181, R183, R185, R186, R212): a radix outside 2 to 36, whatever the
text; a text with a malformed token (empty, or spelling no number below `2^32` in the radix), whatever its
length; more tokens than `CAP_WORDS`. -/
def Obligations.ParseRefusesInOrder : Prop :=
  (∀ (s : State) (vd : RegNum) (text : List Word) (radix : Nat), vd.toNat < s.regs.length →
    (radix < 2 ∨ 36 < radix) →
    exec (.parse vd text radix) s =
      .next { s with responseOut := s.responseOut ++ [⟨0xF, 0x3, 0, 0, 0, 0, 0⟩] }) ∧
  (∀ (s : State) (vd : RegNum) (radix : Nat) (toks : List (List Word)) (tok : List Word),
    vd.toNat < s.regs.length → 2 ≤ radix → radix ≤ 36 → (∀ t ∈ toks, 0x20#32 ∉ t) → toks ≠ [[]] →
    tok ∈ toks → (tok = [] ∨ ∀ v, v < 2 ^ 32 → ¬ Spells radix (tok.map (·.toNat)) v) →
    exec (.parse vd (List.intercalate [0x20#32] toks) radix) s =
      .next { s with responseOut := s.responseOut ++ [⟨0xF, 0x4, 0, 0, 0, 0, 0⟩] }) ∧
  (∀ (s : State) (vd : RegNum) (radix c : Nat) (toks : List (List Word)),
    vd.toNat < s.regs.length → 2 ≤ radix → radix ≤ 36 → s.capWords = some c → c < toks.length →
    (∀ tok ∈ toks, tok ≠ [] ∧ ∃ v, v < 2 ^ 32 ∧ Spells radix (tok.map (·.toNat)) v) →
    exec (.parse vd (List.intercalate [0x20#32] toks) radix) s =
      .next { s with responseOut := s.responseOut ++ [⟨0xF, 0x6, 0, 0, 0, 0, 0⟩] })

/-- Parsing the text TOSTRING wrote, in the same radix, gives the same words and `32 * wc` as the length, in
any register. An inference of the spec's own (43_text_serialization.md, "Round trip"). -/
def Obligations.ParseUndoesTostring : Prop :=
  ∀ (s t : State) (va vb : RegNum) (r : VReg) (radix : Nat) (text : List Byte), s.Holds va r →
    r.sound = true → (∀ c, s.capWords = some c → r.wc ≤ c) → vb.toNat < s.regs.length → 2 ≤ radix →
    radix ≤ 36 → exec (.tostring va radix) s = .next t → t.payloadOut = s.payloadOut ++ text →
      exec (.parse vb (text.map fun c => c.setWidth 32) radix) t = .next { t with
        regs := t.regs.set vb.toNat { valid := true, length := 32 * r.wc, words := r.words }
        responseOut := t.responseOut ++ [⟨0x0, 0, vb, 0, 0, 0, 0⟩] }

/-! ## The reset input at the ports -/

/-- While the reset input is asserted, and until the first command after its release, the BVU accepts nothing and
sends nothing: no host action but the input's own and no step moves anything, and asserting the input abandons a
command in progress without a response (R230) and leaves what R231 says. That the host's actions, the input's own
among them, are functions on the state which land between steps, and that items sent after the release queue, is
the model's choice: log 10 (DESIGN CHOICE); that a step in reset or with no header there is a next state is the
model's reading: log 5 (DEDUCED). -/
def Obligations.ResetInputSilencesThePorts : Prop :=
  (∀ (a : HostAction) (s : State), s.resetIn = true → (∀ asserted, a ≠ .driveReset asserted) →
    hostAct a s = s) ∧
  (∀ s : State, s.resetIn = true → ∃ t, step s = .next t ∧ t.cleared = true ∧ t.resetIn = true) ∧
  (∀ s : State, (hostAct (.driveReset true) s).cleared = true ∧ (hostAct (.driveReset true) s).resetIn = true) ∧
  (∀ (s t : State) (items : List Word), s.resetIn = true →
    t = hostActs (.driveReset false :: items.map .sendItem) s →
      t.resetIn = false ∧ (∀ r ∈ t.regs, r.valid = false) ∧
      ∃ u, step t = .next u ∧ u.regs = t.regs ∧ u.commandIn = [] ∧ u.payloadIn = t.payloadIn ∧
        u.responseOut = [] ∧ u.payloadOut = [])
end

