-- ==== Sys2Proof/Laws/Decode.lean ====
section
/-!
SUPPORT. The header's layout (R61): the fields of a packed header are the fields packed, and a header is the
packing of its fields; what the opcode map gives (R68, R70); the payload count of an encoded command (R77).
-/
namespace Sys2Proof

theorem toNat_pack (f : Fields) :
    (pack f).toNat = f.op.toNat + 16 * f.vd.toNat + 256 * f.vs.toNat + 4096 * f.radix.toNat
      + 2 ^ 18 * f.val.toNat + 2 ^ 19 * f.rsv.toNat + 2 ^ 32 * f.arg.toNat := by
  have h1 := f.op.isLt
  have h2 := f.vd.isLt
  have h3 := f.vs.isLt
  have h4 := f.radix.isLt
  have h5 := f.val.isLt
  have h6 := f.rsv.isLt
  have h7 := f.arg.isLt
  simp only [pack, BitVec.toNat_ofNat]
  apply Nat.mod_eq_of_lt
  omega

/-- The slices of a header are those of R61. -/
theorem unpack_pack (f : Fields) : unpack (pack f) = f := by
  have h := toNat_pack f
  have h1 := f.op.isLt
  have h2 := f.vd.isLt
  have h3 := f.vs.isLt
  have h4 := f.radix.isLt
  have h5 := f.val.isLt
  have h6 := f.rsv.isLt
  have h7 := f.arg.isLt
  obtain ⟨op, vd, vs, radix, val, rsv, arg⟩ := f
  simp only [unpack, Fields.mk.injEq]
  simp only at h h1 h2 h3 h4 h5 h6 h7
  refine ⟨?_, ?_, ?_, ?_, ?_, ?_, ?_⟩ <;> apply BitVec.eq_of_toNat_eq <;>
    simp only [BitVec.extractLsb'_toNat, Nat.shiftRight_eq_div_pow, h] <;> omega

/-- A header is the packing of its fields: no bit lies outside them (R61). -/
theorem pack_unpack (h : Header) : pack (unpack h) = h := by
  apply BitVec.eq_of_toNat_eq
  rw [toNat_pack]
  have := h.isLt
  simp only [unpack, BitVec.extractLsb'_toNat, Nat.shiftRight_eq_div_pow]
  omega

/-- Two headers with the same fields are the same header (R61). -/
theorem eq_of_unpack_eq {g h : Header} (e : unpack g = unpack h) : g = h := by
  rw [← pack_unpack g, e, pack_unpack]

/-- Masking a header masks each of its fields (R68's `H & mask`). -/
theorem unpack_and (h m : Header) :
    unpack (h &&& m) =
      { op := (unpack h).op &&& (unpack m).op
        vd := (unpack h).vd &&& (unpack m).vd
        vs := (unpack h).vs &&& (unpack m).vs
        radix := (unpack h).radix &&& (unpack m).radix
        val := (unpack h).val &&& (unpack m).val
        rsv := (unpack h).rsv &&& (unpack m).rsv
        arg := (unpack h).arg &&& (unpack m).arg } := by
  simp only [unpack, Fields.mk.injEq]
  refine ⟨?_, ?_, ?_, ?_, ?_, ?_, ?_⟩ <;> exact BitVec.extractLsb'_and

@[simp] theorem Op.ofCode_code (op : Op) : Op.ofCode op.code = some op := by
  cases op <;> rfl

/-- The codes of the opcode map (R68); every other code is reserved (R70). -/
theorem Op.ofCode_eq_some_iff (c : BitVec 4) (op : Op) : Op.ofCode c = some op ↔ c = op.code := by
  constructor
  · intro h
    have hc := List.find?_some (p := fun o : Op => o.code == c) (l := Op.all) h
    exact (beq_iff_eq.mp hc).symm
  · rintro rfl
    exact Op.ofCode_code op

@[simp] theorem Instr.fields_op (i : Instr) : i.fields.op = i.op.code := by
  cases i <;> rfl

/-- The encoder leaves `RSV` and every field the command does not use zero (R69). -/
theorem Instr.fields_unusedZero (i : Instr) : unusedZero i.op.uses i.fields = true := by
  cases i <;> simp [unusedZero, Instr.op, Op.uses, Instr.fields, baseFields]

/-- What the decoder makes of a header's fields, said once. -/
theorem decode_pack (f : Fields) (items : List Word) :
    decode (pack f) items =
      match Op.ofCode f.op with
      | none => .reject .reservedOpcode
      | some op =>
        if unusedZero op.uses f then
          if items.length < (if op.hasPayload then f.arg.toNat else 0) then .reject .shortPayload
          else
            .instr (instrOf op f (items.take (if op.hasPayload then f.arg.toNat else 0)))
              (items.drop (if op.hasPayload then f.arg.toNat else 0))
        else .reject .nonZeroUnused := by
  unfold decode payloadCount
  rw [unpack_pack]
  cases Op.ofCode f.op <;> rfl

/-- The payload count of an encoded command's header, by the fields. -/
theorem payloadCount_encode (i : Instr) :
    payloadCount (encode i).1 = if i.op.hasPayload then i.fields.arg.toNat else 0 := by
  simp [payloadCount, encode, unpack_pack]

end Sys2Proof
end

