-- ==== Sys2Proof/Laws/State.lean ====
section
/-!
SUPPORT. One lemma per field per update of State, true by `rfl`: no later proof unfolds a record update.
-/
namespace Sys2Proof.Machine

/-! `setReg` -/
@[simp] theorem State.setReg_regs (s : State) (d : RegNum) (r : VReg) :
    (s.setReg d r).regs = s.regs.set d.toNat r := rfl
@[simp] theorem State.setReg_capWords (s : State) (d : RegNum) (r : VReg) :
    (s.setReg d r).capWords = s.capWords := rfl
@[simp] theorem State.setReg_resetIn (s : State) (d : RegNum) (r : VReg) :
    (s.setReg d r).resetIn = s.resetIn := rfl
@[simp] theorem State.setReg_inProgress (s : State) (d : RegNum) (r : VReg) :
    (s.setReg d r).inProgress = s.inProgress := rfl
@[simp] theorem State.setReg_commandIn (s : State) (d : RegNum) (r : VReg) :
    (s.setReg d r).commandIn = s.commandIn := rfl
@[simp] theorem State.setReg_payloadIn (s : State) (d : RegNum) (r : VReg) :
    (s.setReg d r).payloadIn = s.payloadIn := rfl
@[simp] theorem State.setReg_responseOut (s : State) (d : RegNum) (r : VReg) :
    (s.setReg d r).responseOut = s.responseOut := rfl
@[simp] theorem State.setReg_payloadOut (s : State) (d : RegNum) (r : VReg) :
    (s.setReg d r).payloadOut = s.payloadOut := rfl
@[simp] theorem State.setReg_resets (s : State) (d : RegNum) (r : VReg) :
    (s.setReg d r).resets = s.resets := rfl

/-! `send` -/
@[simp] theorem State.send_regs (s : State) (r : Reply) : (s.send r).regs = s.regs := rfl
@[simp] theorem State.send_capWords (s : State) (r : Reply) : (s.send r).capWords = s.capWords := rfl
@[simp] theorem State.send_resetIn (s : State) (r : Reply) : (s.send r).resetIn = s.resetIn := rfl
@[simp] theorem State.send_inProgress (s : State) (r : Reply) : (s.send r).inProgress = s.inProgress := rfl
@[simp] theorem State.send_commandIn (s : State) (r : Reply) : (s.send r).commandIn = s.commandIn := rfl
@[simp] theorem State.send_payloadIn (s : State) (r : Reply) : (s.send r).payloadIn = s.payloadIn := rfl
@[simp] theorem State.send_responseOut (s : State) (r : Reply) :
    (s.send r).responseOut = s.responseOut ++ [r.response] := rfl
@[simp] theorem State.send_payloadOut (s : State) (r : Reply) :
    (s.send r).payloadOut = s.payloadOut ++ r.chars := rfl
@[simp] theorem State.send_resets (s : State) (r : Reply) : (s.send r).resets = s.resets := rfl

/-! `afterReset` -/
@[simp] theorem State.afterReset_regs (s : State) :
    s.afterReset.regs = s.regs.mapIdx fun d _ =>
      { valid := false, length := Config.resetLength s.resets d, words := Config.resetWords s.resets d } := rfl
@[simp] theorem State.afterReset_capWords (s : State) : s.afterReset.capWords = s.capWords := rfl
@[simp] theorem State.afterReset_resetIn (s : State) : s.afterReset.resetIn = s.resetIn := rfl
@[simp] theorem State.afterReset_inProgress (s : State) : s.afterReset.inProgress = none := rfl
@[simp] theorem State.afterReset_commandIn (s : State) : s.afterReset.commandIn = [] := rfl
@[simp] theorem State.afterReset_payloadIn (s : State) : s.afterReset.payloadIn = [] := rfl
@[simp] theorem State.afterReset_responseOut (s : State) : s.afterReset.responseOut = [] := rfl
@[simp] theorem State.afterReset_payloadOut (s : State) : s.afterReset.payloadOut = [] := rfl
@[simp] theorem State.afterReset_resets (s : State) : s.afterReset.resets = s.resets + 1 := rfl

/-! `afterGathering` -/
@[simp] theorem State.afterGathering_regs (s : State) (p : Pending) :
    (s.afterGathering p).regs = s.regs := rfl
@[simp] theorem State.afterGathering_capWords (s : State) (p : Pending) :
    (s.afterGathering p).capWords = s.capWords := rfl
@[simp] theorem State.afterGathering_resetIn (s : State) (p : Pending) :
    (s.afterGathering p).resetIn = s.resetIn := rfl
@[simp] theorem State.afterGathering_inProgress (s : State) (p : Pending) :
    (s.afterGathering p).inProgress = none := rfl
@[simp] theorem State.afterGathering_commandIn (s : State) (p : Pending) :
    (s.afterGathering p).commandIn = s.commandIn := rfl
@[simp] theorem State.afterGathering_payloadIn (s : State) (p : Pending) :
    (s.afterGathering p).payloadIn = s.payloadIn.drop (payloadCount p.header - p.items.length) := rfl
@[simp] theorem State.afterGathering_responseOut (s : State) (p : Pending) :
    (s.afterGathering p).responseOut = s.responseOut := rfl
@[simp] theorem State.afterGathering_payloadOut (s : State) (p : Pending) :
    (s.afterGathering p).payloadOut = s.payloadOut := rfl
@[simp] theorem State.afterGathering_resets (s : State) (p : Pending) :
    (s.afterGathering p).resets = s.resets := rfl

/-! `withCommand` -/
@[simp] theorem State.withCommand_regs (s : State) (h : Header) (xs : List Word) :
    (s.withCommand h xs).regs = s.regs := rfl
@[simp] theorem State.withCommand_capWords (s : State) (h : Header) (xs : List Word) :
    (s.withCommand h xs).capWords = s.capWords := rfl
@[simp] theorem State.withCommand_resetIn (s : State) (h : Header) (xs : List Word) :
    (s.withCommand h xs).resetIn = false := rfl
@[simp] theorem State.withCommand_inProgress (s : State) (h : Header) (xs : List Word) :
    (s.withCommand h xs).inProgress = none := rfl
@[simp] theorem State.withCommand_commandIn (s : State) (h : Header) (xs : List Word) :
    (s.withCommand h xs).commandIn = h :: s.commandIn := rfl
@[simp] theorem State.withCommand_payloadIn (s : State) (h : Header) (xs : List Word) :
    (s.withCommand h xs).payloadIn = xs ++ s.payloadIn := rfl
@[simp] theorem State.withCommand_responseOut (s : State) (h : Header) (xs : List Word) :
    (s.withCommand h xs).responseOut = [] := rfl
@[simp] theorem State.withCommand_payloadOut (s : State) (h : Header) (xs : List Word) :
    (s.withCommand h xs).payloadOut = [] := rfl
@[simp] theorem State.withCommand_resets (s : State) (h : Header) (xs : List Word) :
    (s.withCommand h xs).resets = s.resets := rfl

end Sys2Proof.Machine
end

