-- ==== Sys2Proof/Laws/Ops.lean ====
section
/-!
SUPPORT. What each shared operation can do, said once: reading a register after a write (R28), the ways a
command ends (R10), and the common checks (R205, R206, R212).
-/
namespace Sys2Proof.Machine

/-! Registers -/

@[simp] theorem State.reg?_send (s : State) (r : Reply) (d : RegNum) : (s.send r).reg? d = s.reg? d := rfl

theorem State.reg?_setReg_self {s : State} {d : RegNum} {old : VReg} (h : s.reg? d = some old) (r : VReg) :
    (s.setReg d r).reg? d = some r := by
  have hlt : d.toNat < s.regs.length := (List.getElem?_eq_some_iff.mp h).1
  simp [State.reg?, hlt]

theorem State.reg?_setReg_of_ne (s : State) {d e : RegNum} (h : e ≠ d) (r : VReg) :
    (s.setReg d r).reg? e = s.reg? e := by
  have hne : d.toNat ≠ e.toNat := fun heq => h (BitVec.eq_of_toNat_eq heq.symm)
  simp [State.reg?, hne]

/-- A register number names a register exactly when it is below `NVEC` (R205). -/
theorem State.reg?_eq_none_iff (s : State) (d : RegNum) : s.reg? d = none ↔ s.regs.length ≤ d.toNat := by
  simp [State.reg?]

theorem State.overCapacity_eq_false_iff (s : State) (n : Nat) :
    s.overCapacity n = false ↔ ∀ c, s.capWords = some c → n ≤ c := by
  unfold State.overCapacity
  cases h : s.capWords <;> simp

theorem State.overCapacity_eq_true_iff (s : State) (n : Nat) :
    s.overCapacity n = true ↔ ∃ c, s.capWords = some c ∧ c < n := by
  unfold State.overCapacity
  cases h : s.capWords <;> simp

@[simp] theorem State.overCapacity_setReg (s : State) (d : RegNum) (r : VReg) (n : Nat) :
    (s.setReg d r).overCapacity n = s.overCapacity n := rfl

@[simp] theorem State.overCapacity_send (s : State) (r : Reply) (n : Nat) :
    (s.send r).overCapacity n = s.overCapacity n := rfl

/-! How a command ends: always with a next state -/

theorem respond_eq (result : Result) (s : State) : respond result s = .next (s.send (.ok result)) := rfl

theorem raise_eq (kind : ErrorKind) (a b : BitVec 32) (s : State) :
    raise kind a b s = .next (s.send (.error kind a b)) := rfl

theorem refuse_eq (reason : Reason) (s : State) : refuse reason s = .next (s.send (.refused reason)) := rfl

theorem construct_eq (vd : RegNum) (n : Nat) (ws : List Word) (s : State) :
    construct vd n ws s =
      .next ((s.setReg vd { valid := true, length := n, words := ws }).send (.ok (.register vd))) := rfl

theorem replaceWords_eq (vd : RegNum) (r : VReg) (ws : List Word) (result : Result) (s : State) :
    replaceWords vd r ws result s = .next ((s.setReg vd { r with words := ws }).send (.ok result)) := rfl

/-! The common checks -/

theorem withReceiver_of_valid {vd : RegNum} {s : State} {r : VReg} (body : VReg → Outcome)
    (h : s.reg? vd = some r) (hv : r.valid = true) : withReceiver vd s body = body r := by
  simp [withReceiver, h, hv]

theorem withReceiver_of_none {vd : RegNum} {s : State} (body : VReg → Outcome)
    (h : s.reg? vd = none) : withReceiver vd s body = refuse .badRegister s := by
  simp [withReceiver, h]

theorem withReceiver_of_invalid {vd : RegNum} {s : State} {r : VReg} (body : VReg → Outcome)
    (h : s.reg? vd = some r) (hv : r.valid = false) :
    withReceiver vd s body = refuse .notConstructed s := by
  simp [withReceiver, h, hv]

/-- Everything `withReceiver` can do. -/
theorem withReceiver_cases (vd : RegNum) (s : State) (body : VReg → Outcome) :
    (s.reg? vd = none ∧ withReceiver vd s body = refuse .badRegister s) ∨
    (∃ r, s.reg? vd = some r ∧ r.valid = false ∧ withReceiver vd s body = refuse .notConstructed s) ∨
    (∃ r, s.reg? vd = some r ∧ r.valid = true ∧ withReceiver vd s body = body r) := by
  cases h : s.reg? vd with
  | none => exact .inl ⟨rfl, withReceiver_of_none body h⟩
  | some r =>
    cases hv : r.valid with
    | false => exact .inr (.inl ⟨r, rfl, hv, withReceiver_of_invalid body h hv⟩)
    | true => exact .inr (.inr ⟨r, rfl, hv, withReceiver_of_valid body h hv⟩)

theorem withPair_of_valid {vd vs : RegNum} {s : State} {r o : VReg} (body : VReg → VReg → Outcome)
    (h : s.reg? vd = some r) (h' : s.reg? vs = some o) (hv : r.valid = true) (hv' : o.valid = true) :
    withPair vd vs s body = body r o := by
  simp [withPair, h, h', hv, hv']

theorem withPair_of_none {vd vs : RegNum} {s : State} (body : VReg → VReg → Outcome)
    (h : s.reg? vd = none ∨ s.reg? vs = none) : withPair vd vs s body = refuse .badRegister s := by
  unfold withPair
  rcases h with h | h <;> rw [h]
  cases s.reg? vd <;> rfl

theorem withPair_of_invalid {vd vs : RegNum} {s : State} {r o : VReg} (body : VReg → VReg → Outcome)
    (h : s.reg? vd = some r) (h' : s.reg? vs = some o) (hv : r.valid = false ∨ o.valid = false) :
    withPair vd vs s body = refuse .notConstructed s := by
  simp only [withPair, h, h']
  rcases hv with hv | hv <;> simp [hv]

/-- Everything `withPair` can do. -/
theorem withPair_cases (vd vs : RegNum) (s : State) (body : VReg → VReg → Outcome) :
    ((s.reg? vd = none ∨ s.reg? vs = none) ∧ withPair vd vs s body = refuse .badRegister s) ∨
    (∃ r o, s.reg? vd = some r ∧ s.reg? vs = some o ∧ (r.valid = false ∨ o.valid = false) ∧
      withPair vd vs s body = refuse .notConstructed s) ∨
    (∃ r o, s.reg? vd = some r ∧ s.reg? vs = some o ∧ r.valid = true ∧ o.valid = true ∧
      withPair vd vs s body = body r o) := by
  cases h : s.reg? vd with
  | none => exact .inl ⟨.inl rfl, withPair_of_none body (.inl h)⟩
  | some r =>
    cases h' : s.reg? vs with
    | none => exact .inl ⟨.inr rfl, withPair_of_none body (.inr h')⟩
    | some o =>
      cases hv : r.valid with
      | false => exact .inr (.inl ⟨r, o, rfl, rfl, .inl hv, withPair_of_invalid body h h' (.inl hv)⟩)
      | true =>
        cases hv' : o.valid with
        | false => exact .inr (.inl ⟨r, o, rfl, rfl, .inr hv', withPair_of_invalid body h h' (.inr hv')⟩)
        | true => exact .inr (.inr ⟨r, o, rfl, rfl, hv, hv', withPair_of_valid body h h' hv hv'⟩)

theorem withTarget_of_some {vd : RegNum} {s : State} {r : VReg} (body : Outcome) (h : s.reg? vd = some r) :
    withTarget vd s body = body := by
  simp [withTarget, h]

theorem withTarget_of_none {vd : RegNum} {s : State} (body : Outcome) (h : s.reg? vd = none) :
    withTarget vd s body = refuse .badRegister s := by
  simp [withTarget, h]

/-- Everything `withTarget` can do. -/
theorem withTarget_cases (vd : RegNum) (s : State) (body : Outcome) :
    (s.reg? vd = none ∧ withTarget vd s body = refuse .badRegister s) ∨
    (∃ r, s.reg? vd = some r ∧ withTarget vd s body = body) := by
  cases h : s.reg? vd with
  | none => exact .inl ⟨rfl, withTarget_of_none body h⟩
  | some r => exact .inr ⟨r, rfl, withTarget_of_some body h⟩

end Sys2Proof.Machine
end

