-- ==== Sys2Proof/Laws/Words.lean ====
section
/-!
SUPPORT. What the word and storage functions give, bit by bit (R7, R40): SET's one bit (R45, R106), the
algebra's words (R148), the shift's words (R160, R163), and how many words each keeps (R23).
-/
namespace Sys2Proof.Machine

/-! One bit of one word -/

theorem getLsbD_setWordBit (x : Word) (k : Nat) (value : Bool) (hk : k < 32) (j : Nat) :
    (setWordBit x k value).getLsbD j = if j = k then value else x.getLsbD j := by
  unfold setWordBit
  rcases Nat.lt_or_ge j 32 with hj | hj
  · cases value <;> simp [hj] <;>
      grind
  · have hne : j ≠ k := by omega
    simp [hne, BitVec.getLsbD_of_ge _ _ hj]

@[simp] theorem length_setBit (words : List Word) (i : Nat) (value : Bool) :
    (setBit words i value).length = words.length := by
  simp [setBit]

/-- SET's storage, bit by bit (R45, R106). -/
theorem bit_setBit (words : List Word) (i : Nat) (value : Bool) (hi : i / 32 < words.length) (j : Nat) :
    ((setBit words i value).getD (j / 32) 0).getLsbD (j % 32) =
      if j = i then value else (words.getD (j / 32) 0).getLsbD (j % 32) := by
  unfold setBit
  have h32 : i % 32 < 32 := Nat.mod_lt _ (by decide)
  simp only [List.getD_eq_getElem?_getD, List.getElem?_modify]
  by_cases hw : i / 32 = j / 32
  · rw [← hw, List.getElem?_eq_getElem hi]
    simp only [↓reduceIte, Option.map_eq_map, Option.map_some, Option.getD_some, getLsbD_setWordBit _ _ _ h32]
    have : (j % 32 = i % 32) ↔ (j = i) := by omega
    simp [this]
  · have : j ≠ i := fun h => hw (by rw [h])
    simp [hw, this]

/-! Words kept -/

theorem length_shiftWords (old : List Word) (count n : Nat) : (shiftWords old count n).length = count := by
  simp [shiftWords]

/-- Word `i` after a shift (R160). -/
theorem getElem?_shiftWords (old : List Word) (count n i : Nat) :
    (shiftWords old count n)[i]? = if i < count then some (shiftedWord old n i) else none := by
  by_cases h : i < count <;> simp [shiftWords, h]

/-- A bit of a storage below the word `back` places down, as a bit index of the whole storage. -/
theorem getLsbD_srcWord (old : List Word) (i back k : Nat) :
    (srcWord old i back).getLsbD k =
      (decide (back ≤ i) && (old.getD (i - back) 0).getLsbD k) := by
  unfold srcWord
  split <;> simp [*]

/-- A bit of a shifted word is the bit of the storage `n` places below, zero where there is none (R160). -/
theorem getLsbD_shiftedWord (old : List Word) (n i k : Nat) (hk : k < 32) :
    (shiftedWord old n i).getLsbD k =
      (decide (n ≤ 32 * i + k) &&
        (old.getD ((32 * i + k - n) / 32) 0).getLsbD ((32 * i + k - n) % 32)) := by
  unfold shiftedWord
  split
  · rename_i h0
    rw [getLsbD_srcWord]
    by_cases hle : n / 32 ≤ i
    · have h1 : n ≤ 32 * i + k := by omega
      have h2 : (32 * i + k - n) / 32 = i - n / 32 := by omega
      have h3 : (32 * i + k - n) % 32 = k := by omega
      simp [hle, h1, h2, h3]
    · have h1 : ¬ n ≤ 32 * i + k := by omega
      simp [hle, h1]
  · rename_i h0
    simp only [BitVec.getLsbD_or, BitVec.getLsbD_shiftLeft, BitVec.getLsbD_ushiftRight, getLsbD_srcWord, hk,
      decide_true, Bool.true_and]
    by_cases hlow : k < n % 32
    · by_cases hle : n / 32 + 1 ≤ i
      · have h1 : n ≤ 32 * i + k := by omega
        have h2 : (32 * i + k - n) / 32 = i - (n / 32 + 1) := by omega
        have h3 : (32 * i + k - n) % 32 = 32 - n % 32 + k := by omega
        simp [hlow, hle, h1, h2, h3]
      · have h1 : ¬ n ≤ 32 * i + k := by omega
        simp [hlow, hle, h1]
    · have hcarry : 32 ≤ 32 - n % 32 + k := by omega
      rw [BitVec.getLsbD_of_ge _ (32 - n % 32 + k) hcarry]
      by_cases hle : n / 32 ≤ i
      · have h1 : n ≤ 32 * i + k := by omega
        have h2 : (32 * i + k - n) / 32 = i - n / 32 := by omega
        have h3 : (32 * i + k - n) % 32 = k - n % 32 := by omega
        simp [hlow, hle, h1, h2, h3]
      · have h1 : ¬ n ≤ 32 * i + k := by omega
        simp [hlow, hle, h1]

/-- A bit of a storage lies in one of its words (R40). -/
theorem bit_lt_capacity {i c : Nat} (h : i < 32 * c) : i / 32 < c := by omega

end Sys2Proof.Machine
end

