-- ==== Sys2Proof/Laws/Exec.lean ====
section
/-!
SUPPORT. What a command can do, said once for all twelve (`exec_cases`), and what a step can do
(`step_cases`): the lemmas to cite instead of unfolding `exec`, `fetch` or `step`.
-/
namespace Sys2Proof.Machine

theorem sound_of_mem {s : State} (hs : s.regs.all VReg.sound = true) {d : RegNum} {r : VReg}
    (h : s.reg? d = some r) (hv : r.valid = true) : r.words.length = r.wc := by
  have hm : r ∈ s.regs := List.mem_of_getElem? h
  have := List.all_eq_true.mp hs r hm
  simpa [VReg.sound, hv] using this

/-- The ways a command ends. -/
inductive ExecCase (i : Instr) (s : State) : Outcome → Prop
  /-- A response and nothing else: GET, WEIGHT, TOSTRING (R47), every error and every refusal (R203). -/
  | answer (r : Reply) (hr : i.constructs = true → ∃ x, r = .refused x ∨ ∃ k a b, r = .error k a b) :
      ExecCase i s (.next (s.send r))
  /-- NEW or PARSE has constructed a new vector in the receiver (R100, R181). -/
  | constructed (old : VReg) (length : Nat) (words : List Word) (hc : i.constructs = true)
      (hold : s.reg? i.receiver = some old) (hlen : words.length = wordCount length)
      (hcap : s.overCapacity (wordCount length) = false) :
      ExecCase i s (.next ((s.setReg i.receiver { valid := true, length := length, words := words }).send
        (.ok (.register i.receiver))))
  /-- The receiver's words have been replaced, its length kept (R22): SET, SETVALUE, NOT, AND, OR, XOR,
  LSHIFT. Nothing goes to payload-out. -/
  | written (r : VReg) (words : List Word) (result : Result) (hc : i.constructs = false)
      (hr : s.reg? i.receiver = some r) (hv : r.valid = true)
      (hlen : s.regs.all VReg.sound = true → words.length = r.wc)
      (hres : result = .nothing ∨ result = .register i.receiver) :
      ExecCase i s (.next ((s.setReg i.receiver { r with words := words }).send (.ok result)))

theorem wordCount_mul (n : Nat) : wordCount (32 * n) = n := by
  unfold wordCount
  omega

/-- One case split for every command with a receiver that must be constructed. -/
theorem execCase_withReceiver {i : Instr} {s : State} {body : VReg → Outcome} (hc : i.constructs = false)
    (h : ∀ r, s.reg? i.receiver = some r → r.valid = true → ExecCase i s (body r)) :
    ExecCase i s (withReceiver i.receiver s body) := by
  have hans : ∀ r : Reply, ExecCase i s (.next (s.send r)) := fun r =>
    .answer r (fun h' => by rw [hc] at h'; cases h')
  rcases withReceiver_cases i.receiver s body with ⟨_, he⟩ | ⟨r, _, _, he⟩ | ⟨r, hr, hv, he⟩ <;> rw [he]
  · exact hans _
  · exact hans _
  · exact h r hr hv

theorem execCase_combine {i : Instr} {s : State} (op : Word → Word → Word) (vs : RegNum)
    (hc : i.constructs = false) : ExecCase i s (combine op i.receiver vs s) := by
  have hans : ∀ r : Reply, ExecCase i s (.next (s.send r)) := fun r =>
    .answer r (fun h' => by rw [hc] at h'; cases h')
  unfold combine
  rcases withPair_cases i.receiver vs s
    (fun r o => if r.wc = o.wc then
      replaceWords i.receiver r (List.zipWith op r.words o.words) (.register i.receiver) s
      else raise .lengthMismatch (countField r.wc) (countField o.wc) s) with
    ⟨_, he⟩ | ⟨r, o, _, _, _, he⟩ | ⟨r, o, hr, ho, hv, hv', he⟩ <;> rw [he]
  · exact hans _
  · exact hans _
  · split
    · rename_i hwc
      refine .written r _ _ hc hr hv (fun hs => ?_) (.inr rfl)
      rw [List.length_zipWith, sound_of_mem hs hr hv, sound_of_mem hs ho hv', ← hwc, Nat.min_self]
    · exact hans _

theorem length_tokenWords {r : Nat} {toks : List (List Word)} {xs : List Word}
    (h : tokenWords r toks = some xs) : xs.length = toks.length := by
  induction toks generalizing xs with
  | nil => cases h; rfl
  | cons t ts ih =>
    simp only [tokenWords] at h
    split at h
    · rename_i x ys hx hys
      cases h
      simp [ih hys]
    · cases h

/-- Everything a command can do. -/
theorem exec_cases (i : Instr) (s : State) : ExecCase i s (exec i s) := by
  cases i with
  | new vd length =>
    show ExecCase (.new vd length) s (execNew vd length s)
    unfold execNew
    rcases withTarget_cases vd s _ with ⟨_, he⟩ | ⟨r, hr, he⟩ <;> rw [he]
    · exact .answer _ fun _ => ⟨_, .inl rfl⟩
    · split
      · exact .answer _ fun _ => ⟨.capacity, .inr ⟨_, _, _, rfl⟩⟩
      · split
        · exact .answer _ fun _ => ⟨_, .inl rfl⟩
        · rename_i hcap
          exact .constructed r _ _ rfl hr (by simp) (by simpa using hcap)
  | get vd index =>
    exact execCase_withReceiver (i := .get vd index) rfl fun r _ _ => by
      split <;> exact .answer _ (fun h => by cases h)
  | set vd index value =>
    exact execCase_withReceiver (i := .set vd index value) rfl fun r hr hv => by
      split
      · exact .written r _ _ rfl hr hv (fun hs => by rw [length_setBit]; exact sound_of_mem hs hr hv) (.inl rfl)
      · exact .answer _ (fun h => by cases h)
  | setvalue vd words =>
    exact execCase_withReceiver (i := .setvalue vd words) rfl fun r hr hv => by
      split
      · rename_i hl
        exact .written r _ _ rfl hr hv (fun _ => hl) (.inl rfl)
      · exact .answer _ (fun h => by cases h)
  | weight vd =>
    exact execCase_withReceiver (i := .weight vd) rfl fun r _ _ => .answer _ (fun h => by cases h)
  | not vd =>
    exact execCase_withReceiver (i := .not vd) rfl fun r hr hv =>
      .written r _ _ rfl hr hv (fun hs => by rw [List.length_map]; exact sound_of_mem hs hr hv) (.inr rfl)
  | and vd vs => exact execCase_combine (i := .and vd vs) _ vs rfl
  | or vd vs => exact execCase_combine (i := .or vd vs) _ vs rfl
  | xor vd vs => exact execCase_combine (i := .xor vd vs) _ vs rfl
  | lshift vd n =>
    exact execCase_withReceiver (i := .lshift vd n) rfl fun r hr hv => by
      split
      · exact .answer _ (fun h => by cases h)
      · split
        · exact .answer _ (fun h => by cases h)
        · exact .written r _ _ rfl hr hv (fun _ => length_shiftWords _ _ _) (.inr rfl)
  | tostring vd radix =>
    exact execCase_withReceiver (i := .tostring vd radix) rfl fun r _ _ => by
      split <;> exact .answer _ (fun h => by cases h)
  | parse vd text radix =>
    show ExecCase (.parse vd text radix) s (execParse vd text radix s)
    unfold execParse
    rcases withTarget_cases vd s _ with ⟨_, he⟩ | ⟨r, hr, he⟩ <;> rw [he]
    · exact .answer _ fun _ => ⟨_, .inl rfl⟩
    · split
      · split
        · exact .answer _ fun _ => ⟨_, .inl rfl⟩
        · rename_i xs hx
          split
          · exact .answer _ fun _ => ⟨_, .inl rfl⟩
          · rename_i hcap
            refine .constructed r _ _ rfl hr ?_ ?_
            · rw [List.length_reverse, wordCount_mul]
            · rw [wordCount_mul]; simpa using hcap
      · exact .answer _ fun _ => ⟨_, .inl rfl⟩

/-- The ways taking a command can go (R77, R230, R237, R238). -/
inductive FetchCase (s : State) : Fetched → Prop
  /-- The reset input is asserted (R230). -/
  | inReset (h : s.resetIn = true) : FetchCase s (.hold s.afterReset)
  /-- Outputs not taken, or no header there: nothing changes (R238). -/
  | idle (h : s.resetIn = false) (hp : s.inProgress = none) (hw : s.outputsTaken = false ∨ s.commandIn = []) :
      FetchCase s (.hold s)
  /-- A command in progress goes on (R237). -/
  | resumed (p : Pending) (h : s.resetIn = false) (hp : s.inProgress = some p) : FetchCase s (acquire p s)
  /-- A header is accepted (R77). -/
  | accepted (x : Header) (xs : List Header) (h : s.resetIn = false) (hp : s.inProgress = none)
      (hw : s.outputsTaken = true) (hc : s.commandIn = x :: xs) :
      FetchCase s (acquire { header := x, items := [] } { s with commandIn := xs })

/-- Everything `fetch` can do. -/
theorem fetch_cases (s : State) : FetchCase s (fetch s) := by
  cases hr : s.resetIn with
  | true =>
    have he : fetch s = .hold s.afterReset := by simp [fetch, hr]
    exact he ▸ .inReset hr
  | false =>
    cases hp : s.inProgress with
    | some p =>
      have he : fetch s = acquire p s := by simp [fetch, hr, hp]
      exact he ▸ .resumed p hr hp
    | none =>
      cases hw : s.outputsTaken with
      | false =>
        have he : fetch s = .hold s := by simp [fetch, hr, hp, hw]
        rw [he]; exact .idle hr hp (.inl hw)
      | true =>
        cases hc : s.commandIn with
        | nil =>
          have he : fetch s = .hold s := by simp [fetch, hr, hp, hw, hc]
          rw [he]; exact .idle hr hp (.inr hc)
        | cons x xs =>
          have he : fetch s = acquire { header := x, items := [] } { s with commandIn := xs } := by
            simp [fetch, hr, hp, hw, hc]
          rw [he]; exact .accepted x xs hr hp hw hc

/-- Everything `acquire` can do: hold with the payload still short, or end the command in progress. -/
theorem acquire_cases (p : Pending) (s : State) :
    ((gathered p s).length < payloadCount p.header ∧
      acquire p s =
        .hold { s.afterGathering p with inProgress := some { header := p.header, items := gathered p s } }) ∨
    (payloadCount p.header ≤ (gathered p s).length ∧ (∃ x, decode p.header (gathered p s) = .reject x) ∧
      acquire p s = .reject (s.afterGathering p)) ∨
    (∃ i rest, payloadCount p.header ≤ (gathered p s).length ∧ decode p.header (gathered p s) = .instr i rest ∧
      acquire p s = .run i (s.afterGathering p)) := by
  unfold acquire
  split
  · rename_i h
    exact .inl ⟨h, rfl⟩
  · rename_i h
    split
    · rename_i i rest hd
      exact .inr (.inr ⟨i, rest, Nat.le_of_not_lt h, hd, rfl⟩)
    · rename_i x hd
      exact .inr (.inl ⟨Nat.le_of_not_lt h, ⟨x, hd⟩, rfl⟩)

theorem step_of_hold {s t : State} (h : fetch s = .hold t) : step s = .next t := by
  simp only [step, h]

theorem step_of_reject {s t : State} (h : fetch s = .reject t) :
    step s = .next (t.send (.refused .reservedEncoding)) := by
  simp only [step, h, refuse_eq]

theorem step_of_run {s t : State} {i : Instr} (h : fetch s = .run i t) : step s = exec i t := by
  simp only [step, h]

end Sys2Proof.Machine
end

