-- ==== Sys2Proof/Laws/HostPort.lean ====
section
/-!
SUPPORT. What the host's actions can do, said once: the reset input (R230, R231), lists of actions, presenting a
command and taking the outputs (R77, R237, R238), and what issuing one command comes to (R240).
-/
namespace Sys2Proof.Machine

/-! The reset input -/

theorem cleared_afterReset (s : State) : s.afterReset.cleared = true := by
  simp only [State.cleared, State.outputsTaken, State.afterReset_regs, State.afterReset_inProgress,
    State.afterReset_commandIn, State.afterReset_payloadIn, State.afterReset_responseOut,
    State.afterReset_payloadOut, Option.isNone_none, List.isEmpty_nil, Bool.and_true, List.all_eq_true]
  intro r hr
  obtain ⟨_, _, rfl⟩ := List.mem_mapIdx.mp hr
  rfl

@[simp] theorem State.driveReset_resetIn (s : State) (asserted : Bool) :
    (s.driveReset asserted).resetIn = asserted := by
  unfold State.driveReset
  cases asserted <;> cases h : s.resetIn <;> simp [h]

theorem State.driveReset_of_released {s : State} (h : s.resetIn = false) : s.driveReset false = s := by
  simp [State.driveReset, h]

/-- Wherever the input is or was asserted, the machine is as reset leaves it (R230, R231). -/
theorem cleared_driveReset {s : State} {asserted : Bool} (h : asserted = true ∨ s.resetIn = true) :
    (s.driveReset asserted).cleared = true := by
  have hb : (asserted || s.resetIn) = true := by simpa using h
  rw [State.driveReset, if_pos hb]
  exact cleared_afterReset s

/-- While the input is asserted no transfer takes place (R230). -/
theorem hostAct_of_resetIn {s : State} {a : HostAction} (h : s.resetIn = true)
    (ha : ∀ asserted, a ≠ .driveReset asserted) : hostAct a s = s := by
  cases a with
  | driveReset asserted => exact absurd rfl (ha asserted)
  | sendHeader _ => simp [hostAct, h]
  | sendItem _ => simp [hostAct, h]
  | takeResponse => simp [hostAct, h]
  | takeChar => simp [hostAct, h]

/-! Lists of actions -/

@[simp] theorem hostActs_nil (s : State) : hostActs [] s = s := rfl

@[simp] theorem hostActs_cons (a : HostAction) (as : List HostAction) (s : State) :
    hostActs (a :: as) s = hostActs as (hostAct a s) := rfl

theorem hostActs_append (as bs : List HostAction) (s : State) :
    hostActs (as ++ bs) s = hostActs bs (hostActs as s) := List.foldl_append

theorem hostActs_sendItem {s : State} (h : s.resetIn = false) (items : List Word) :
    hostActs (items.map .sendItem) s = { s with payloadIn := s.payloadIn ++ items } := by
  induction items generalizing s with
  | nil => simp
  | cons x xs ih => simp [hostAct, h, ih]

theorem hostActs_takeResponse {s : State} (h : s.resetIn = false) (n : Nat) :
    hostActs (List.replicate n .takeResponse) s = { s with responseOut := s.responseOut.drop n } := by
  induction n generalizing s with
  | zero => simp
  | succ n ih => simp [List.replicate_succ, hostAct, h, ih]

theorem hostActs_takeChar {s : State} (h : s.resetIn = false) (n : Nat) :
    hostActs (List.replicate n .takeChar) s = { s with payloadOut := s.payloadOut.drop n } := by
  induction n generalizing s with
  | zero => simp
  | succ n ih => simp [List.replicate_succ, hostAct, h, ih]

/-- The host takes all outputs (R238): nothing else changes. -/
theorem takeOutputs_eq {s : State} (h : s.resetIn = false) :
    takeOutputs s = { s with responseOut := [], payloadOut := [] } := by
  have h' : ({ s with responseOut := s.responseOut.drop s.responseOut.length } : State).resetIn = false := h
  rw [takeOutputs, hostActs_append, hostActs_takeResponse h, hostActs_takeChar h']
  simp

/-- A command presented stands behind what the channels hold (R77, R237). -/
theorem present_eq {s : State} (h : s.resetIn = false) (c : Command) :
    present c s =
      { s with commandIn := s.commandIn ++ [c.header], payloadIn := s.payloadIn ++ c.payload } := by
  have h' : ({ s with commandIn := s.commandIn ++ [c.header] } : State).resetIn = false := h
  rw [present, hostActs_cons, ← hostActs_sendItem h']
  simp [hostAct, h]

/-! Issuing one command -/

theorem State.settled_iff (s : State) :
    s.settled = true ↔ s.resetIn = false ∧ s.inProgress = none ∧ s.commandIn = [] := by
  simp [State.settled, and_assoc]

/-- Issuing a command is one turn at the channels, with the header accepted and the payload behind what
payload-in holds. -/
theorem fetch_issue {s : State} (h : s.settled = true) (c : Command) :
    fetch (present c (takeOutputs s)) = acquire { header := c.header, items := [] }
      { s with payloadIn := s.payloadIn ++ c.payload, responseOut := [], payloadOut := [] } := by
  obtain ⟨hr, hp, hc⟩ := (State.settled_iff s).mp h
  rw [takeOutputs_eq hr, present_eq (s := { s with responseOut := [], payloadOut := [] }) hr]
  simp [fetch, State.outputsTaken, hr, hp, hc]

/-- Everything issuing a command can do (R237, R240): with the payload short the command is accepted and not
answered; else it is answered by one response, its items are off the channel and the machine is settled again. -/
theorem issue_cases {s : State} (h : s.settled = true) (c : Command) :
    (s.payloadIn.length + c.payload.length < payloadCount c.header ∧
      issue c s = .next { s with
        payloadIn := []
        inProgress := some { header := c.header, items := s.payloadIn ++ c.payload }
        responseOut := []
        payloadOut := [] }) ∨
    (payloadCount c.header ≤ s.payloadIn.length + c.payload.length ∧ ∃ t, issue c s = .next t ∧
      t.settled = true ∧ t.responseOut.length = 1 ∧
      t.payloadIn = (s.payloadIn ++ c.payload).drop (payloadCount c.header)) := by
  have hf := fetch_issue h c
  obtain ⟨hr, hp, hc⟩ := (State.settled_iff s).mp h
  rcases acquire_cases { header := c.header, items := [] }
      { s with payloadIn := s.payloadIn ++ c.payload, responseOut := [], payloadOut := [] } with
    ⟨hl, ha⟩ | ⟨hl, _, ha⟩ | ⟨i, _, hl, _, ha⟩
  · refine .inl ?_
    have hl' : s.payloadIn.length + c.payload.length < payloadCount c.header := by
      simp only [gathered, List.nil_append, List.length_nil, Nat.sub_zero, List.length_take,
        List.length_append] at hl
      omega
    refine ⟨hl', (step_of_hold (hf.trans ha)).trans ?_⟩
    have htake : (s.payloadIn ++ c.payload).length ≤ payloadCount c.header := by
      rw [List.length_append]; omega
    simp [State.afterGathering, gathered, List.take_of_length_le htake, List.drop_eq_nil_of_le htake, hr]
  · refine .inr ⟨by simpa [gathered] using hl, _, step_of_reject (hf.trans ha), ?_, ?_, ?_⟩ <;>
      simp [State.settled_iff, hr, hc]
  · refine .inr ⟨by simpa [gathered] using hl, ?_⟩
    have hcase := exec_cases i
      (State.afterGathering { s with payloadIn := s.payloadIn ++ c.payload, responseOut := [], payloadOut := [] }
        { header := c.header, items := [] })
    rw [issue, step_of_run (hf.trans ha)]
    generalize exec i _ = o at hcase
    cases hcase <;> exact ⟨_, rfl, by simp [State.settled_iff, hr, hc], by simp, by simp⟩

end Sys2Proof.Machine
end

