-- ==== Sys2Proof/Laws/PerInstr.lean ====
section
/-!
SUPPORT. The family `PayloadCount`, one lemma a command: the header of a well-formed command announces
exactly the payload that goes with it (R63, R66, R67, R77), so an encoded command leaves the payload stream
in step with the command stream.
-/
namespace Sys2Proof.Laws

/-- The header's count is the payload's length. -/
def PayloadCount.Statement (i : Instr) : Prop :=
  i.wellFormed = true → payloadCount (encode i).1 = (encode i).2.length

/-- The two shapes of the family: no payload, or as many items as the list carried has. -/
theorem payloadCount_of_list {i : Instr} {items : List Word} (hp : i.op.hasPayload = true)
    (ha : i.fields.arg = BitVec.ofNat 32 items.length) (hl : i.payload = items) (hlt : items.length < 2 ^ 32) :
    payloadCount (encode i).1 = (encode i).2.length := by
  rw [payloadCount_encode, if_pos hp, ha, BitVec.toNat_ofNat, Nat.mod_eq_of_lt hlt]
  simp [encode, hl]

end Sys2Proof.Laws

theorem Sys2Proof.Laws.PayloadCount.new (vd : Sys2Proof.RegNum) (n : Int) :
    Sys2Proof.Laws.PayloadCount.Statement (.new vd n) := fun _ => Sys2Proof.payloadCount_encode _
theorem Sys2Proof.Laws.PayloadCount.get (vd : Sys2Proof.RegNum) (n : Int) :
    Sys2Proof.Laws.PayloadCount.Statement (.get vd n) := fun _ => Sys2Proof.payloadCount_encode _
theorem Sys2Proof.Laws.PayloadCount.set (vd : Sys2Proof.RegNum) (n : Int) (b : Bool) :
    Sys2Proof.Laws.PayloadCount.Statement (.set vd n b) := fun _ => Sys2Proof.payloadCount_encode _
theorem Sys2Proof.Laws.PayloadCount.setvalue (vd : Sys2Proof.RegNum) (ws : List Sys2Proof.Word) :
    Sys2Proof.Laws.PayloadCount.Statement (.setvalue vd ws) := fun h =>
  Sys2Proof.Laws.payloadCount_of_list rfl rfl rfl
    (by simpa [Sys2Proof.Instr.wellFormed, Sys2Proof.fitsCount] using h)
theorem Sys2Proof.Laws.PayloadCount.weight (vd : Sys2Proof.RegNum) :
    Sys2Proof.Laws.PayloadCount.Statement (.weight vd) := fun _ => Sys2Proof.payloadCount_encode _
theorem Sys2Proof.Laws.PayloadCount.not (vd : Sys2Proof.RegNum) :
    Sys2Proof.Laws.PayloadCount.Statement (.not vd) := fun _ => Sys2Proof.payloadCount_encode _
theorem Sys2Proof.Laws.PayloadCount.and (vd vs : Sys2Proof.RegNum) :
    Sys2Proof.Laws.PayloadCount.Statement (.and vd vs) := fun _ => Sys2Proof.payloadCount_encode _
theorem Sys2Proof.Laws.PayloadCount.or (vd vs : Sys2Proof.RegNum) :
    Sys2Proof.Laws.PayloadCount.Statement (.or vd vs) := fun _ => Sys2Proof.payloadCount_encode _
theorem Sys2Proof.Laws.PayloadCount.xor (vd vs : Sys2Proof.RegNum) :
    Sys2Proof.Laws.PayloadCount.Statement (.xor vd vs) := fun _ => Sys2Proof.payloadCount_encode _
theorem Sys2Proof.Laws.PayloadCount.lshift (vd : Sys2Proof.RegNum) (n : Int) :
    Sys2Proof.Laws.PayloadCount.Statement (.lshift vd n) := fun _ => Sys2Proof.payloadCount_encode _
theorem Sys2Proof.Laws.PayloadCount.tostring (vd : Sys2Proof.RegNum) (r : Nat) :
    Sys2Proof.Laws.PayloadCount.Statement (.tostring vd r) := fun _ => Sys2Proof.payloadCount_encode _
theorem Sys2Proof.Laws.PayloadCount.parse (vd : Sys2Proof.RegNum) (text : List Sys2Proof.Word) (r : Nat) :
    Sys2Proof.Laws.PayloadCount.Statement (.parse vd text r) := fun h =>
  Sys2Proof.Laws.payloadCount_of_list rfl rfl rfl
    (by
      have h' : Sys2Proof.fitsCount text.length = true := (Bool.and_eq_true_iff.mp h).1
      simpa [Sys2Proof.fitsCount] using h')
end

