-- ==== Sys2Proof/Laws/Text.lean ====
section
/-!
SUPPORT. The text functions, said once: a digit character reads back as its value (R172), a run of digits
stands for its numeral (R182), the digits of a token are those of its word (R173), and cutting a text at its
spaces undoes joining tokens (R174, R180).
-/
namespace Sys2Proof.Machine

/-! Digits -/

theorem digitValue_digitCode {d : Nat} (h : d < 36) : digitValue (digitCode d) = some d := by
  unfold digitCode digitValue
  by_cases hd : d < 10
  · rw [if_pos hd, if_pos (by omega)]
    congr 1
    omega
  · rw [if_neg hd, if_neg (by omega), if_pos (by omega)]
    congr 1
    omega

theorem digitCode_lt {d : Nat} (h : d < 36) : digitCode d < 256 := by
  unfold digitCode
  split <;> omega

theorem digitCode_ne_space {d : Nat} (h : d < 36) : digitCode d ≠ spaceCode := by
  unfold digitCode spaceCode
  split <;> omega

/-- The character of a digit, widened to a payload item, has the digit's code. -/
theorem toNat_item_digitCode {d : Nat} (h : d < 36) :
    ((BitVec.ofNat 8 (digitCode d)).setWidth 32).toNat = digitCode d := by
  have := digitCode_lt h
  simp only [BitVec.toNat_setWidth, BitVec.toNat_ofNat]
  omega

/-- A payload item is a digit character of value `d` exactly when its code is that digit's (R172). -/
theorem digitValue_eq_some_iff (c d : Nat) : digitValue c = some d ↔ d < 36 ∧ c = digitCode d := by
  constructor
  · intro h
    unfold digitValue at h
    unfold digitCode
    split at h
    · cases h
      refine ⟨by omega, ?_⟩
      rw [if_pos (by omega)]
      omega
    · split at h
      · cases h
        refine ⟨by omega, ?_⟩
        rw [if_neg (by omega)]
        omega
      · cases h
  · rintro ⟨hd, rfl⟩
    exact digitValue_digitCode hd

/-! Numerals -/

@[simp] theorem numeral_nil (r : Nat) : numeral r [] = 0 := rfl

@[simp] theorem numeral_cons (r d : Nat) (ds : List Nat) :
    numeral r (d :: ds) = d * r ^ ds.length + numeral r ds := rfl

/-- Reading digits one by one computes the numeral (R182). -/
theorem digitsNumber_eq {r : Nat} (ds : List Nat) (items : List Word) (acc : Nat)
    (hv : items.map (fun c => digitValue c.toNat) = ds.map some) (hr : ∀ d ∈ ds, d < r) :
    digitsNumber r items acc = some (acc * r ^ ds.length + numeral r ds) := by
  induction ds generalizing items acc with
  | nil =>
    cases items with
    | nil => simp [digitsNumber]
    | cons c cs => simp at hv
  | cons d ds ih =>
    cases items with
    | nil => simp at hv
    | cons c cs =>
      simp only [List.map_cons, List.cons.injEq] at hv
      have hd : d < r := hr d (by simp)
      simp only [digitsNumber, hv.1, if_pos hd]
      rw [ih cs _ hv.2 (fun e he => hr e (by simp [he])), numeral_cons, List.length_cons, pow_succ']
      congr 1
      ring

/-- What was read as a number is a run of digits of the radix (R182, R183). -/
theorem digits_of_digitsNumber {r : Nat} {items : List Word} {acc v : Nat}
    (h : digitsNumber r items acc = some v) :
    ∃ ds, items.map (fun c => digitValue c.toNat) = ds.map some ∧ (∀ d ∈ ds, d < r) ∧
      v = acc * r ^ ds.length + numeral r ds := by
  induction items generalizing acc with
  | nil =>
    simp only [digitsNumber, Option.some.injEq] at h
    exact ⟨[], rfl, by simp, by simp [h]⟩
  | cons c cs ih =>
    simp only [digitsNumber] at h
    split at h
    · cases h
    · rename_i d hd
      split at h
      · rename_i hlt
        obtain ⟨ds, h1, h2, h3⟩ := ih h
        refine ⟨d :: ds, by simp [hd, h1], by simpa using ⟨hlt, h2⟩, ?_⟩
        rw [h3, numeral_cons, List.length_cons, pow_succ']
        ring
      · cases h

/-- The digits of `x` at width `w` in radix `r`, the most significant first. -/
def digitsAt (r w x : Nat) : List Nat := (List.range w).map fun j => x / r ^ (w - 1 - j) % r

@[simp] theorem length_digitsAt (r w x : Nat) : (digitsAt r w x).length = w := by simp [digitsAt]

theorem digitsAt_lt {r w x d : Nat} (hr : 0 < r) (h : d ∈ digitsAt r w x) : d < r := by
  simp only [digitsAt, List.mem_map] at h
  obtain ⟨j, _, rfl⟩ := h
  exact Nat.mod_lt _ hr

/-- `w` digits are enough for every number below `r^w`, and stand for it (R173). -/
theorem numeral_digitsAt (r w x : Nat) : numeral r (digitsAt r w x) = x % r ^ w := by
  induction w with
  | zero => simp [digitsAt, Nat.mod_one]
  | succ w ih =>
    have hstep : digitsAt r (w + 1) x = (x / r ^ w % r) :: digitsAt r w x := by
      simp only [digitsAt, List.range_succ_eq_map, List.map_cons, List.map_map]
      congr 1
      apply List.map_congr_left
      intro j _
      have : w - (j + 1) = w - 1 - j := by omega
      simp [this]
    rw [hstep, numeral_cons, ih, length_digitsAt, Nat.pow_succ, Nat.mod_mul]
    ring

theorem token_eq (x : Word) (r : Nat) :
    token x r = (digitsAt r (padWidth r) x.toNat).map fun d => BitVec.ofNat 8 (digitCode d) := by
  simp [token, digitsAt]

@[simp] theorem length_token (x : Word) (r : Nat) : (token x r).length = padWidth r := by simp [token]

/-! Joining and cutting -/

theorem cutAtSpaces_ne_nil (text : List Word) : cutAtSpaces text ≠ [] := by
  cases text with
  | nil => simp [cutAtSpaces]
  | cons c cs =>
    simp only [cutAtSpaces]
    split
    · simp
    · split <;> simp

/-- A run without spaces stays in front of the first token. -/
theorem cutAtSpaces_append {t : List Word} (ht : ∀ c ∈ t, c.toNat ≠ spaceCode) (rest : List Word) :
    ∃ u us, cutAtSpaces rest = u :: us ∧ cutAtSpaces (t ++ rest) = (t ++ u) :: us := by
  induction t with
  | nil =>
    cases h : cutAtSpaces rest with
    | nil => exact absurd h (cutAtSpaces_ne_nil rest)
    | cons u us => exact ⟨u, us, rfl, by simpa using h⟩
  | cons c cs ih =>
    obtain ⟨u, us, h1, h2⟩ := ih fun c hc => ht c (by simp [hc])
    have hc : c.toNat ≠ spaceCode := ht c (by simp)
    exact ⟨u, us, h1, by simp [cutAtSpaces, hc, h2]⟩

/-- Cutting undoes joining, for tokens without spaces (R174, R180). -/
theorem cutAtSpaces_intercalate {toks : List (List Word)} (hne : toks ≠ [])
    (hsp : ∀ t ∈ toks, ∀ c ∈ t, c.toNat ≠ spaceCode) :
    cutAtSpaces (List.intercalate [BitVec.ofNat 32 spaceCode] toks) = toks := by
  induction toks with
  | nil => exact absurd rfl hne
  | cons t ts ih =>
    cases ts with
    | nil =>
      obtain ⟨u, us, h1, h2⟩ := cutAtSpaces_append (hsp t (by simp)) []
      simp only [cutAtSpaces, List.cons.injEq] at h1
      simp only [List.intercalate_singleton]
      rw [List.append_nil] at h2
      rw [h2, ← h1.1, ← h1.2, List.append_nil]
    | cons u us =>
      have ih' := ih (by simp) fun t' ht' => hsp t' (by simp [ht'])
      obtain ⟨a, as, h1, h2⟩ := cutAtSpaces_append (hsp t (by simp))
        (BitVec.ofNat 32 spaceCode :: List.intercalate [BitVec.ofNat 32 spaceCode] (u :: us))
      have hs : (BitVec.ofNat 32 spaceCode).toNat = spaceCode := rfl
      simp only [cutAtSpaces, hs, ↓reduceIte, List.cons.injEq] at h1
      rw [List.intercalate_cons_cons, List.append_assoc, List.singleton_append, h2, ← h1.1, ← h1.2, ih',
        List.append_nil]

theorem joinTokens_eq (toks : List (List Byte)) :
    joinTokens toks = List.intercalate [BitVec.ofNat 8 spaceCode] toks := by
  induction toks with
  | nil => rfl
  | cons t ts ih =>
    cases ts with
    | nil => simp [joinTokens]
    | cons u us => simp [joinTokens, ih, List.intercalate_cons_cons]

end Sys2Proof.Machine
end

