-- ==== Sys2Proof/Machine/Assembler.lean ====
section
/-!
DEFINITION. The assembler notation of R79 and R80: one command a line, a mnemonic in upper case, operands
separated by commas. Two forms have a short spelling that means radix 36 (R80). What R79 does not settle, the
blanks between the parts of a line and the spellings of a numeral, is log 13 (DESIGN CHOICE).
-/
namespace Sys2Proof.Machine

/-- A reader of the front of a line: what it read and what is left, or nothing. -/
abbrev Reader (α : Type) := List Char → Option (α × List Char)

/-- Drop the blanks (0x20) at the front. -/
def skipBlanks : List Char → List Char
  | [] => []
  | c :: cs => if c.toNat = 0x20 then skipBlanks cs else c :: cs

/-- Expect one character of the given code after blanks. -/
def expectCode (code : Nat) (cs : List Char) : Option (List Char) :=
  match skipBlanks cs with
  | [] => none
  | c :: rest => if c.toNat = code then some rest else none

/-- The upper-case letters at the front. -/
def letters : List Char → List Char × List Char
  | [] => ([], [])
  | c :: cs =>
    if 0x41 ≤ c.toNat ∧ c.toNat ≤ 0x5A then ((c :: (letters cs).1), (letters cs).2) else ([], c :: cs)

/-- The value of a digit in a numeral of the notation, decimal or hexadecimal; that a hexadecimal letter may have
either case is the model's choice (log 13). -/
def numeralDigit (base : Nat) (c : Char) : Option Nat :=
  let d :=
    if 0x30 ≤ c.toNat ∧ c.toNat ≤ 0x39 then c.toNat - 0x30
    else if 0x61 ≤ c.toNat ∧ c.toNat ≤ 0x66 then c.toNat - 0x61 + 10
    else if 0x41 ≤ c.toNat ∧ c.toNat ≤ 0x46 then c.toNat - 0x41 + 10
    else base
  if d < base then some d else none

/-- The digits at the front, added behind `acc`, and what is left. -/
def digitsFrom (base : Nat) : List Char → Nat → Nat × List Char
  | [], acc => (acc, [])
  | c :: cs, acc =>
    match numeralDigit base c with
    | some d => digitsFrom base cs (acc * base + d)
    | none => (acc, c :: cs)

/-- At least one digit; that leading zeros may stand before it is the model's choice (log 13). -/
def readDigits (base : Nat) : Reader Nat
  | [] => none
  | c :: cs =>
    match numeralDigit base c with
    | some d => some (digitsFrom base cs d)
    | none => none

/-- A numeral without sign: hexadecimal behind `0x`, else decimal (R79). -/
def readNat (cs : List Char) : Option (Nat × List Char) :=
  match cs with
  | z :: x :: rest =>
    if z.toNat = 0x30 ∧ x.toNat = 0x78 then readDigits 16 rest else readDigits 10 (z :: x :: rest)
  | other => readDigits 10 other

/-- An integer operand, with an optional leading minus (R79), which may stand before a zero too (log 13). -/
def readInt : Reader Int := fun cs =>
  match skipBlanks cs with
  | [] => none
  | c :: rest =>
    if c.toNat = 0x2D then (readNat rest).map fun p => (-(p.1 : Int), p.2)
    else (readNat (c :: rest)).map fun p => ((p.1 : Int), p.2)

/-- A register `v0` to `v15` (R79). That the number may have leading zeros, as in `v007`, is the model's choice
(log 13). -/
def readReg : Reader RegNum := fun cs =>
  match expectCode 0x76 cs with
  | none => none
  | some rest =>
    match readDigits 10 rest with
    | none => none
    | some (n, left) => if n < 16 then some (BitVec.ofNat 4 n, left) else none

/-- A word of a list: an integer below `2^32`, without a sign (log 13). -/
def readWord : Reader Word := fun cs =>
  match readNat (skipBlanks cs) with
  | none => none
  | some (n, left) => if n < 2 ^ 32 then some (BitVec.ofNat 32 n, left) else none

/-- The rest of a word list, up to the closing bracket; the first argument bounds the number of words. -/
def readWordsTail : Nat → Reader (List Word)
  | 0, _ => none
  | k + 1, cs =>
    match expectCode 0x5D cs with
    | some left => some ([], left)
    | none =>
      match expectCode 0x2C cs with
      | none => none
      | some rest =>
        match readWord rest with
        | none => none
        | some (w, left) => (readWordsTail k left).map fun p => (w :: p.1, p.2)

/-- A word list in brackets, the word for index 0 first (R79). -/
def readWords : Reader (List Word) := fun cs =>
  match expectCode 0x5B cs with
  | none => none
  | some rest =>
    match expectCode 0x5D rest with
    | some left => some ([], left)
    | none =>
      match readWord rest with
      | none => none
      | some (w, left) => (readWordsTail (left.length + 1) left).map fun p => (w :: p.1, p.2)

/-- A character a text may hold: the 37 of R172. -/
def isTextCode (n : Nat) : Bool :=
  n == 0x20 || (decide (0x30 ≤ n) && decide (n ≤ 0x39)) || (decide (0x61 ≤ n) && decide (n ≤ 0x7A))

/-- The characters of a text up to the closing quote, which is not part of it (R79). -/
def readTextTail : Reader (List Word)
  | [] => none
  | c :: cs =>
    if c.toNat = 0x22 then some ([], cs)
    else if isTextCode c.toNat then
      (readTextTail cs).map fun p => (BitVec.ofNat 32 c.toNat :: p.1, p.2)
    else none

/-- A text between double quotes. -/
def readText : Reader (List Word) := fun cs =>
  match expectCode 0x22 cs with
  | none => none
  | some rest => readTextTail rest

/-- A further operand, behind a comma. -/
def operand {α : Type} (read : Reader α) : Reader α := fun cs =>
  match expectCode 0x2C cs with
  | none => none
  | some rest => read rest

/-- A radix operand, or 36 where the line ends without one (R80). -/
def radixOperand : Reader Int := fun cs =>
  if (skipBlanks cs).isEmpty then some (36, []) else operand readInt cs

/-- Blanks only up to the end of the line. -/
def atEnd (cs : List Char) : Bool := (skipBlanks cs).isEmpty

/-- One operand beside the receiver, then the end of the line. -/
def withOperand {α : Type} (read : Reader α) (build : α → Instr) (cs : List Char) : Option Instr :=
  match read cs with
  | none => none
  | some (a, left) => if atEnd left then some (build a) else none

/-- The value operand of SET, written `0` or `1` (R79). That any integer numeral of those two values is read, as
`01`, `0x1` or `-0`, is the model's choice (log 13). -/
def readBool : Reader Bool := fun cs =>
  match readInt cs with
  | none => none
  | some (n, left) => if n = 0 then some (false, left) else if n = 1 then some (true, left) else none

/-- What stands behind the mnemonic and the receiver, by mnemonic (R79). -/
def operandsOf (mnemonic : List Char) (vd : RegNum) (cs : List Char) : Option Instr :=
  if mnemonic = ['N', 'E', 'W'] then withOperand (operand readInt) (fun n => .new vd n) cs
  else if mnemonic = ['G', 'E', 'T'] then withOperand (operand readInt) (fun n => .get vd n) cs
  else if mnemonic = ['S', 'E', 'T'] then
    match operand readInt cs with
    | none => none
    | some (n, left) => withOperand (operand readBool) (fun b => .set vd n b) left
  else if mnemonic = ['S', 'E', 'T', 'V', 'A', 'L', 'U', 'E'] then
    withOperand (operand readWords) (fun ws => .setvalue vd ws) cs
  else if mnemonic = ['W', 'E', 'I', 'G', 'H', 'T'] then if atEnd cs then some (.weight vd) else none
  else if mnemonic = ['N', 'O', 'T'] then if atEnd cs then some (.not vd) else none
  else if mnemonic = ['A', 'N', 'D'] then withOperand (operand readReg) (fun vs => .and vd vs) cs
  else if mnemonic = ['O', 'R'] then withOperand (operand readReg) (fun vs => .or vd vs) cs
  else if mnemonic = ['X', 'O', 'R'] then withOperand (operand readReg) (fun vs => .xor vd vs) cs
  else if mnemonic = ['L', 'S', 'H', 'I', 'F', 'T'] then withOperand (operand readInt) (fun n => .lshift vd n) cs
  else if mnemonic = ['T', 'O', 'S', 'T', 'R', 'I', 'N', 'G'] then
    match radixOperand cs with
    | none => none
    | some (r, left) => if atEnd left && decide (0 ≤ r) then some (.tostring vd r.toNat) else none
  else if mnemonic = ['P', 'A', 'R', 'S', 'E'] then
    match operand readText cs with
    | none => none
    | some (text, rest) =>
      match radixOperand rest with
      | none => none
      | some (r, left) => if atEnd left && decide (0 ≤ r) then some (.parse vd text r.toNat) else none
  else none

/-- The command of one line (R79, R80), if the line is one and a header can carry it. -/
def assemble (line : List Char) : Option Instr :=
  match readReg (letters (skipBlanks line)).2 with
  | none => none
  | some (vd, rest) =>
    match operandsOf (letters (skipBlanks line)).1 vd rest with
    | none => none
    | some i => if i.wellFormed then some i else none

/-- `TOSTRING vd` stands for `TOSTRING vd, 36` (R80). -/
def tostringDefault (vd : RegNum) : Instr := .tostring vd 36

/-- `PARSE vd, "text"` stands for `PARSE vd, "text", 36` (R80). -/
def parseDefault (vd : RegNum) (text : List Word) : Instr := .parse vd text 36

end Sys2Proof.Machine
end

