-- ==== Sys2Proof/Tests/Slice0.lean ====
section
/-!
SUPPORT. The model's own tests: expected results come from 95_test_vectors.md (the vector or scenario is named)
or are worked by hand from a rule. `test_…` theorems check the model; `witness_…` theorems show a concrete state
and operands that meet the hypotheses of a statement of Certificates/Slice0/Obligations.lean, clause by clause.
-/
namespace Sys2Proof.Tests
open Sys2Proof Sys2Proof.Machine

/-! ## Small states -/

/-- A machine with these registers and this `CAP_WORDS`, all else as after reset. -/
def machine (cap : Option Nat) (regs : List VReg) : State :=
  { State.resetWith { nvec := regs.length, capWords := cap } with regs := regs }

/-- A constructed register. -/
def vec (length : Nat) (words : List Word) : VReg := { valid := true, length := length, words := words }

/-- The next state, if the outcome is one. -/
def nextOf : Outcome → Option State
  | .next t => some t
  | .fault _ => none
  | .refused _ => none

/-- What a command leaves in a register. -/
def regAfter (o : Outcome) (d : RegNum) : Option VReg := (nextOf o).bind fun t => t.reg? d

/-- The responses a command leaves. -/
def responsesAfter (o : Outcome) : Option (List Response) := (nextOf o).map (·.responseOut)

/-- The codes of the characters a command leaves on payload-out. -/
def textAfter (o : Outcome) : Option (List Nat) := (nextOf o).map fun t => t.payloadOut.map (·.toNat)

/-- Reset, with one 8-bit register: the state of 95_test_vectors.md section 2.1, for `NVEC` = 4. -/
def small : State := machine none [vec 8 [0], VReg.unconstructed, VReg.unconstructed, VReg.unconstructed]

/-- The registers of V-A4. -/
def pair : State := machine (some 3) [vec 40 [0xFFFF0000, 0x000000FF], vec 64 [0x0F0F0F0F, 0xF0F0F0F0]]

/-- The registers of V-A8, and one of no words. -/
def mismatched : State := machine (some 3) [vec 40 [1, 2], vec 32 [3], vec 0 []]

/-- The register of V-SH2. -/
def shifted : State := machine none [vec 64 [0x80000001, 0]]

/-! ## WellFormed refuses what no header carries -/

theorem test_wellFormed_new : (Instr.new 0 (-2147483648)).wellFormed = true := by decide
theorem test_illFormed_new : (Instr.new 0 2147483648).wellFormed = false := by decide
theorem test_illFormed_get : (Instr.get 0 (-2147483649)).wellFormed = false := by decide
theorem test_illFormed_set : (Instr.set 0 2147483648 true).wellFormed = false := by decide
theorem test_illFormed_lshift : (Instr.lshift 0 2147483648).wellFormed = false := by decide
theorem test_illFormed_tostring : (Instr.tostring 0 64).wellFormed = false := by decide
theorem test_illFormed_parse_radix : (Instr.parse 0 [] 64).wellFormed = false := by decide
theorem test_illFormed_setvalue : (Instr.setvalue 0 (List.replicate (2 ^ 32) 0)).wellFormed = false := by
  rw [Instr.wellFormed, List.length_replicate]
  decide
theorem test_illFormed_parse_text : (Instr.parse 0 (List.replicate (2 ^ 32) 0) 36).wellFormed = false := by
  rw [Instr.wellFormed, List.length_replicate]
  decide

/-! ## Decoding: every command's header of 95_test_vectors.md, written out -/

theorem test_decode_new : decode 0x0000002800000001 [] = .instr (.new 0 40) [] := by decide
theorem test_decode_new_negative : decode 0xFFFFFFFF00000031 [] = .instr (.new 3 (-1)) [] := by decide
theorem test_decode_get : decode 0x0000003F00000012 [] = .instr (.get 1 63) [] := by decide
theorem test_decode_set : decode 0x0000001F00040003 [] = .instr (.set 0 31 true) [] := by decide
theorem test_decode_setvalue :
    decode 0x0000000200000014 [0x0F0F0F0F, 0xF0F0F0F0, 7] =
      .instr (.setvalue 1 [0x0F0F0F0F, 0xF0F0F0F0]) [7] := by decide
theorem test_decode_weight : decode 0x0000000000000025 [] = .instr (.weight 2) [] := by decide
theorem test_decode_not : decode 0x0000000000000006 [] = .instr (.not 0) [] := by decide
theorem test_decode_and : decode 0x0000000000000207 [] = .instr (.and 0 2) [] := by decide
theorem test_decode_or : decode 0x0000000000000028 [] = .instr (.or 2 0) [] := by decide
theorem test_decode_xor : decode 0x0000000000000019 [] = .instr (.xor 1 0) [] := by decide
theorem test_decode_lshift : decode 0x800000000000000A [] = .instr (.lshift 0 (-2147483648)) [] := by decide
theorem test_decode_tostring : decode 0x000000000003F00B [] = .instr (.tostring 0 63) [] := by decide
theorem test_decode_parse :
    decode 0x000000020001001C [0x66, 0x166] = .instr (.parse 1 [0x66, 0x166] 16) [] := by decide
/-- V-E1 to V-E4. -/
theorem test_decode_reserved_opcodes :
    [0x0, 0xD, 0xE, 0x000000050000000F].map (fun h => decode h [1, 2, 3, 4, 5]) =
      List.replicate 4 (.reject .reservedOpcode) := by decide
/-- V-E5 to V-E9. -/
theorem test_decode_nonzero_unused :
    [0x0000000000000105, 0x0000000100000005, 0x0000000000040006, 0x0000000000080001, 0x0000000000001217].map
      (fun h => decode h []) = List.replicate 5 (.reject .nonZeroUnused) := by decide
/-- R61's formula and the slices agree on a header with every field set. -/
theorem test_pack_all_fields :
    pack ⟨0xC, 0x1, 0x2, 0x24, 1, 0x3, 0x89ABCDEF⟩ = 0x89ABCDEF001E421C := by decide
theorem test_decodeTableWord_match_values :
    (opcodeTable.map fun row => (decodeTableWord 64 row.value.toNat).map Instr.op) =
      opcodeTable.map fun row => some row.op := by decide
/-- Every row's header, placed after reset, gives a next state with one response. -/
theorem test_withFetchWord_runs :
    (opcodeTable.map fun row =>
      ((nextOf (step (State.reset.withFetchWord 64 row.value.toNat))).map fun t =>
        (t.responseOut.length, t.commandIn, t.inProgress))) =
      List.replicate 12 (some (1, [], none)) := by decide

/-! ## One step of each command -/

/-- S1. -/
theorem test_new_40 : regAfter (exec (.new 0 40) small) 0 = some (vec 40 [0, 0]) := by decide
/-- V-N7: one word too many for `CAP_WORDS` = 3. -/
theorem test_new_capacity :
    responsesAfter (exec (.new 0 97) (machine (some 3) [vec 8 [0x89]])) = some [⟨0xF, 6, 0, 0, 0, 0, 0⟩] := by
  decide
/-- V-G4: the last legal index. -/
theorem test_get_last :
    responsesAfter (exec (.get 0 39) (machine none [vec 40 [0x80000000, 0x81]])) =
      some [⟨0, 0, 0, 1, 0, 0, 0⟩] := by decide
/-- V-G5: a padding bit may not be read. -/
theorem test_get_padding :
    responsesAfter (exec (.get 0 40) (machine none [vec 40 [0x80000000, 0x81]])) =
      some [⟨2, 0, 0, 0, 0x28, 0, 0⟩] := by decide
/-- V-S6: the padding bits keep their 1s. -/
theorem test_set_keeps_padding :
    regAfter (exec (.set 0 3 false) (machine none [vec 8 [0xFFFFFFFF]])) 0 = some (vec 8 [0xFFFFFFF7]) := by
  decide
/-- V-S2: bit 32 is the lowest of word 1. -/
theorem test_set_second_word :
    regAfter (exec (.set 0 32 true) (machine none [vec 40 [0x80000000, 0]])) 0 =
      some (vec 40 [0x80000000, 1]) := by decide
/-- V-V3: a payload too long is not truncated. -/
theorem test_setvalue_too_long :
    responsesAfter (exec (.setvalue 0 [1, 2, 3]) pair) = some [⟨3, 0, 0, 0, 2, 3, 0⟩] := by decide
/-- V-W2: 24 + 12. -/
theorem test_weight_two_words :
    responsesAfter (exec (.weight 0) (machine none [vec 40 [0xDEADBEEF, 0x01234567]])) =
      some [⟨0, 0, 0, 36, 0, 0, 0⟩] := by decide
/-- The words listed under section 2.2. -/
theorem test_popcount_list :
    [0x00000000, 0x00000001, 0x80000000, 0xFFFFFFFF, 0xDEADBEEF, 0x00000089, 0x0F0F0F0F, 0x12345678,
      0x01234567, 0x89ABCDEF].map popcount = [0, 1, 1, 32, 24, 3, 16, 13, 12, 20] := by decide
/-- R117's worked trace. -/
theorem test_swar_trace : swarPopcount 0xDEADBEEF = 24 := by decide
/-- V-A1. -/
theorem test_not_padding :
    regAfter (exec (.not 0) (machine none [vec 8 [0x89]])) 0 = some (vec 8 [0xFFFFFF76]) := by decide
/-- V-A4. -/
theorem test_and : regAfter (exec (.and 0 1) pair) 0 = some (vec 40 [0x0F0F0000, 0x000000F0]) := by decide
/-- V-A5. -/
theorem test_or : regAfter (exec (.or 0 1) pair) 0 = some (vec 40 [0xFFFF0F0F, 0xF0F0F0FF]) := by decide
/-- V-A7: the result lands in `VD`. -/
theorem test_xor : regAfter (exec (.xor 1 0) pair) 1 = some (vec 64 [0xF0F00F0F, 0xF0F0F00F]) := by decide
/-- V-SH7. -/
theorem test_lshift_36 :
    regAfter (exec (.lshift 0 36) (machine none [vec 96 [0xDEADBEEF, 0x01234567, 0x89ABCDEF]])) 0 =
      some (vec 96 [0, 0xEADBEEF0, 0x1234567D]) := by decide
/-- V-SH11: shift by 0 on no words. -/
theorem test_lshift_empty :
    responsesAfter (exec (.lshift 0 0) (machine none [vec 0 []])) = some [⟨4, 0, 0, 0, 0, 0, 0⟩] := by decide
/-- V-T3e: "16xmrqo 051u7i0". -/
theorem test_tostring_36 :
    textAfter (exec (.tostring 0 36) (machine none [vec 64 [0x12345678, 0x9ABCDEF0]])) =
      some [0x31, 0x36, 0x78, 0x6D, 0x72, 0x71, 0x6F, 0x20, 0x30, 0x35, 0x31, 0x75, 0x37, 0x69, 0x30] := by
  decide
/-- R171's table. -/
theorem test_padWidth_table :
    (List.range 37).map padWidth =
      [32, 32, 32, 21, 16, 14, 13, 12, 11, 11, 10, 10, 9, 9, 9, 9, 8, 8, 8, 8, 8, 8, 8, 8,
        7, 7, 7, 7, 7, 7, 7, 7, 7, 7, 7, 7, 7] := by decide
/-- V-P1: "1 0" in radix 10. -/
theorem test_parse_two_tokens :
    regAfter (exec (.parse 0 [0x31, 0x20, 0x30] 10) small) 0 = some (vec 64 [0, 1]) := by decide
/-- V-P5: 4294967296 is `2^32`. -/
theorem test_parse_too_large :
    responsesAfter
      (exec (.parse 0 [0x34, 0x32, 0x39, 0x34, 0x39, 0x36, 0x37, 0x32, 0x39, 0x36] 10) small) =
      some [⟨0xF, 4, 0, 0, 0, 0, 0⟩] := by decide
/-- V-P9, V-P10, V-P11, V-P12, V-P13, V-P18: empty tokens, upper case, a digit not below the radix, a payload
item with a bit above bit 7. -/
theorem test_parse_malformed :
    [ exec (.parse 0 [0x66, 0x66, 0x20, 0x20, 0x66, 0x66] 16) small, exec (.parse 0 [0x20, 0x66, 0x66] 16) small,
      exec (.parse 0 [0x66, 0x66, 0x20] 16) small, exec (.parse 0 [0x46, 0x46] 16) small,
      exec (.parse 0 [0x31, 0x32] 2) small, exec (.parse 0 [0x166, 0x66] 16) small ].map responsesAfter =
      List.replicate 6 (some [⟨0xF, 4, 0, 0, 0, 0, 0⟩]) := by decide

/-! ## The assembler notation (R79, R80) -/

theorem test_assemble_default_radix : assemble "TOSTRING v3".toList = some (tostringDefault 3) := by decide
theorem test_assemble_parse_default :
    assemble "PARSE v1, \"1 0\"".toList = some (parseDefault 1 [0x31, 0x20, 0x30]) := by decide
theorem test_assemble_words :
    assemble "SETVALUE v0, [0xDEADBEEF, 5]".toList = some (.setvalue 0 [0xDEADBEEF, 5]) := by decide
theorem test_assemble_negative : assemble "LSHIFT v0, -0x10".toList = some (.lshift 0 (-16)) := by decide

/-! ## A run: BA's scenario S3, then S4's text -/

theorem test_run_S3 :
    (match runCommands
      [⟨0x0000004000000001, []⟩, ⟨0x0000000200000004, [1, 0]⟩, ⟨0x000000200000000A, []⟩] small with
     | .next record => some (record.final.reg? 0, record.answers.map (·.responses.length), record.isOver)
     | _ => none) = some (some (vec 64 [0, 1]), [1, 1, 1], true) := by decide
/-- R237, R240: a payload of one word where two are announced. The run is not over, WEIGHT is not issued, and the
host's second word, sent later, completes the command. -/
theorem test_run_short_payload :
    (match runCommands [⟨0x0000000200000014, [9]⟩, ⟨0x0000000000000015, []⟩] pair with
     | .next record =>
       some (record.answers, record.isOver, record.final.reg? 1 == pair.reg? 1,
         regAfter (step (hostAct (.sendItem 8) record.final)) 1)
     | _ => none) = some ([], false, true, some (vec 64 [9, 8])) := by decide
/-- R237: the item beyond the first SETVALUE's count is the next one's first word. -/
theorem test_run_extra_item :
    (match runCommands [⟨0x0000000100000004, [9, 8]⟩, ⟨0x0000000100000004, [7]⟩] small with
     | .next record => some (record.final.reg? 0, record.final.payloadIn, record.isOver)
     | _ => none) = some (some (vec 8 [8]), [7], true) := by decide

/-! ## Witnesses: the encoding and the channels -/

theorem witness_DecodeUndoesEncode : (Instr.parse 3 [0x66, 0x20] 36).wellFormed = true := by decide
theorem witness_EncodeUndoesDecode :
    decode 0x0000000200000014 [1, 2, 3] = .instr (.setvalue 1 [1, 2]) [3] := by decide
theorem witness_DecoderAgreesWithOpcodeTable :
    decode 0x0000000000000005 [] = .instr (.weight 0) [] ∧
    decode 0x0000000200000004 [1] = .reject .shortPayload ∧
    decode 0x0000000000000000 [] = .reject .reservedOpcode ∧
    decode 0x0000000000000105 [] = .reject .nonZeroUnused := by decide

/-- A SETVALUE for register 0 with its one payload word, and one more item behind it. -/
def loaded : State := { small with commandIn := [0x0000000100000004, 0x5], payloadIn := [9, 8] }
/-- The same with two words announced and one there. -/
def starved : State := { small with commandIn := [0x0000000200000004], payloadIn := [9] }
/-- That command in progress. -/
def waiting : State := { small with inProgress := some ⟨0x0000000200000004, [9]⟩, payloadIn := [8, 7] }

theorem witness_StepRunsTheDecodedCommand :
    loaded.Ready ∧ loaded.commandIn = 0x0000000100000004 :: [0x5] ∧
    decode 0x0000000100000004 loaded.payloadIn = .instr (.setvalue 0 [9]) [8] := by decide
theorem test_step_runs : regAfter (step loaded) 0 = some (vec 8 [9]) := by decide
theorem witness_StepResumesTheCommandInProgress :
    waiting.resetIn = false ∧ waiting.inProgress = some ⟨0x0000000200000004, [9]⟩ ∧
    ([9] : List Word).length < payloadCount 0x0000000200000004 ∧
    decode 0x0000000200000004 ([9] ++ waiting.payloadIn) = .instr (.setvalue 0 [9, 8]) [7] := by decide
theorem witness_ShortPayloadWaitsWithoutResponse :
    starved.Ready ∧ starved.commandIn = [0x0000000200000004] ∧
    starved.payloadIn.length < payloadCount 0x0000000200000004 ∧
    ({ waiting with payloadIn := [] } : State).resetIn = false ∧
    ({ waiting with payloadIn := [] } : State).inProgress = some ⟨0x0000000200000004, [9]⟩ ∧
    ([9] : List Word).length + ([] : List Word).length < payloadCount 0x0000000200000004 := by decide
theorem test_short_payload_waits :
    nextOf (step starved) =
      some { small with inProgress := some ⟨0x0000000200000004, [9]⟩ } := by decide
theorem witness_PayloadIsTakenWhateverTheOutcome :
    loaded.Ready ∧ loaded.commandIn = 0x0000000100000004 :: [0x5] ∧
    (unpack 0x0000000100000004).op = 0x4 ∧
    (unpack 0x0000000100000004).arg.toNat ≤ loaded.payloadIn.length ∧ (nextOf (step loaded)).isSome = true := by
  decide
/-- Its other clauses: an output not taken; the last item there, one beyond it; an item missing. -/
theorem witness_PayloadIsTakenWhateverTheOutcome_waiting :
    ({ loaded with payloadOut := [0x30] } : State).payloadOut ≠ [] ∧
    (nextOf (step { loaded with payloadOut := [0x30] })).isSome = true ∧
    waiting.resetIn = false ∧ waiting.inProgress = some ⟨0x0000000200000004, [9]⟩ ∧
    (unpack 0x0000000200000004).op = 0x4 ∧ ([9] : List Word).length < (unpack 0x0000000200000004).arg.toNat ∧
    (unpack 0x0000000200000004).arg.toNat ≤ ([9] : List Word).length + waiting.payloadIn.length ∧
    (nextOf (step waiting)).isSome = true ∧ starved.resetIn = false ∧
    ((nextOf (step starved)).bind fun t => t.inProgress) = some ⟨0x0000000200000004, [9]⟩ := by decide
theorem witness_NoHeaderBeforeOutputsAreTaken :
    ({ loaded with payloadOut := [0x30] } : State).resetIn = false ∧
    ({ loaded with payloadOut := [0x30] } : State).inProgress = none ∧
    ({ loaded with payloadOut := [0x30] } : State).payloadOut ≠ [] ∧
    ({ loaded with responseOut := [Response.zero] } : State).responseOut ≠ [] ∧ small.commandIn = [] := by decide
/-- V-E4: nothing is taken from payload-in. -/
theorem witness_ReservedOpcodeIsRefused :
    ({ loaded with commandIn := [0x000000050000000F] } : State).Ready ∧
    (unpack 0x000000050000000F).op = 0xF := by decide
theorem test_reserved_opcode_takes_no_payload :
    (nextOf (step { loaded with commandIn := [0x000000050000000F] })).map (fun t => (t.payloadIn, t.responseOut)) =
      some ([9, 8], [⟨0xF, 7, 0, 0, 0, 0, 0⟩]) := by decide
/-- One header a kind: `RSV`, `VS`, `RADIX`, `VAL`, `ARG` (V-E8, V-E5, V-E9, V-E7, V-E6). -/
theorem witness_NonZeroUnusedFieldIsRefused :
    small.Ready ∧ (unpack 0x0000000000080001).rsv ≠ 0 ∧
    ((unpack 0x0000000000000105).vs ≠ 0 ∧ (unpack 0x0000000000000105).op ∉ [0x7#4, 0x8#4, 0x9#4]) ∧
    ((unpack 0x0000000000001217).radix ≠ 0 ∧ (unpack 0x0000000000001217).op ∉ [0xB#4, 0xC#4]) ∧
    ((unpack 0x0000000000040006).val ≠ 0 ∧ (unpack 0x0000000000040006).op ≠ 0x3#4) ∧
    ((unpack 0x0000000100000005).arg ≠ 0 ∧
      (unpack 0x0000000100000005).op ∉ [0x1#4, 0x2#4, 0x3#4, 0x4#4, 0xA#4, 0xC#4]) ∧
    payloadCount 0x0000000000080001 ≤ small.payloadIn.length := by decide
/-- A SETVALUE with a bit of `RSV` set is refused and its payload item is taken. -/
theorem test_refused_setvalue_takes_payload :
    (nextOf (step { loaded with commandIn := [0x0000000100080004] })).map (fun t => (t.payloadIn, t.responseOut)) =
      some ([8], [⟨0xF, 7, 0, 0, 0, 0, 0⟩]) := by decide

/-! ## Witnesses: reset and the whole machine -/

theorem witness_ResetInputClearsTheMachine : ({ loaded with resetIn := true } : State).resetIn = true := by decide
theorem witness_ResetMeetsInvariant :
    Params.legal { nvec := 1, capWords := some 0 } = true ∧ Params.legal { nvec := 16, capWords := none } = true := by
  decide
theorem test_reset_inv : State.reset.inv = true := by decide
theorem witness_StepKeepsInvariant : loaded.inv = true ∧ (nextOf (step loaded)).isSome = true := by decide
theorem witness_ParametersNeverChange : (nextOf (step loaded)).isSome = true := by decide
theorem witness_HostActionsReachNoRegister :
    pair.inv = true ∧ pair.resetIn = false ∧
    ∀ asserted, HostAction.takeResponse ≠ .driveReset asserted := by decide
/-- A command in progress when the input is asserted; one released with an item sent before any header. -/
theorem witness_ResetInputSilencesThePorts :
    (hostAct (.driveReset true) waiting).resetIn = true ∧ waiting.inProgress ≠ none ∧
    (∀ asserted, HostAction.sendHeader 0x5 ≠ .driveReset asserted) ∧
    (hostActs [.driveReset false, .sendItem 3] (hostAct (.driveReset true) waiting)).payloadIn = [3] := by decide
/-- A reset with no step between its edges: the command is abandoned and register 0 unconstructed. -/
theorem test_reset_pulse :
    (fun t => (t.inProgress, t.payloadIn, t.resetIn, t.regs.map (·.valid)))
      (hostActs [.driveReset true, .sendItem 8, .driveReset false] waiting) =
      (none, [], false, [false, false, false, false]) := by decide
theorem witness_UnspecifiedContentsAreNeverObserved :
    State.Agrees { small with regs := [vec 8 [0], ⟨false, 7, [1]⟩], commandIn := [0x15] }
      { small with regs := [vec 8 [0], VReg.unconstructed], commandIn := [0x15] } where
  count := rfl
  regs := by
    intro d r q hr hq
    match d with
    | 0 => cases hr; cases hq; exact ⟨rfl, fun _ => rfl⟩
    | 1 => cases hr; cases hq; exact ⟨rfl, fun h => by cases h⟩
    | d + 2 => cases hr
  capWords := rfl
  resetIn := rfl
  inProgress := rfl
  commandIn := rfl
  payloadIn := rfl
  responseOut := rfl
  payloadOut := rfl
theorem witness_FailureChangesNoRegister :
    responsesAfter (exec (.get 0 8) small) = some (small.responseOut ++ [⟨2, 0, 0, 0, 8, 0, 0⟩]) ∧
    responsesAfter (step { small with commandIn := [0] }) =
      some (small.responseOut ++ [⟨0xF, 7, 0, 0, 0, 0, 0⟩]) := by decide
/-- One command a kind, and the diagnostic values of R201. -/
theorem witness_ErrorKindsAreRaisedExactly :
    responsesAfter (exec (.new 0 (-1)) small) = some [⟨1, 0, 0, 0, 0xFFFFFFFF, 0, 0⟩] ∧
    responsesAfter (exec (.get 0 (-1)) small) = some [⟨2, 0, 0, 0, 0xFFFFFFFF, 0, 0⟩] ∧
    responsesAfter (exec (.setvalue 0 []) small) = some [⟨3, 0, 0, 0, 1, 0, 0⟩] ∧
    responsesAfter (exec (.xor 1 0) mismatched) = some [⟨3, 0, 0, 0, 1, 2, 0⟩] ∧
    responsesAfter (exec (.lshift 0 32) small) = some [⟨4, 0, 0, 0, 32, 0, 0⟩] := by decide
/-- V-E12 for `NVEC` = 4: `v15` is checked before `v3`'s construction; and `VD` itself. -/
theorem witness_BadRegisterIsRefused :
    Instr.other (.and 3 15) = some 15 ∧ small.regs.length ≤ (15 : RegNum).toNat ∧
    small.regs.length ≤ (Instr.receiver (.new 4 8)).toNat ∧
    responsesAfter (exec (.and 3 15) small) = some [⟨0xF, 2, 0, 0, 0, 0, 0⟩] ∧
    (1 ≤ (unpack 0x0000000000000105).op.toNat ∧ (unpack 0x0000000000000105).op.toNat ≤ 12 ∧
      (unpack 0x0000000000000105).op ∉ [0x7#4, 0x8#4, 0x9#4] ∧ (unpack 0x0000000000000105).vs ≠ 0) := by decide
/-- V-E15 and V-E14. -/
theorem witness_UnconstructedRegisterIsRefused :
    Instr.constructs (.and 1 0) = false ∧ small.regs[(Instr.receiver (.and 1 0)).toNat]? = some VReg.unconstructed ∧
    VReg.unconstructed.valid = false ∧ Instr.other (.and 0 1) = some 1 ∧
    small.regs[(1 : RegNum).toNat]? = some VReg.unconstructed ∧ (1 : RegNum).toNat < small.regs.length ∧
    responsesAfter (exec (.and 0 1) small) = some [⟨0xF, 1, 0, 0, 0, 0, 0⟩] ∧
    Instr.constructs (.new 1 (-1)) = true ∧
    responsesAfter (exec (.new 1 (-1)) small) = some (small.responseOut ++ [⟨1, 0, 0, 0, 0xFFFFFFFF, 0, 0⟩]) := by
  decide
theorem witness_ReadingCommandsChangeNoState :
    ([Instr.weight 0, .get 0 3, .tostring 0 16].map fun i =>
      ((nextOf (exec i small)).bind fun t => nextOf (exec i t)).isSome) = [true, true, true] := by decide
theorem witness_InPlaceCommandsWriteOnlyReceiverWords :
    ([Instr.set 0 1 true, .setvalue 0 [1, 2], .not 0, .and 0 1, .or 0 1, .xor 0 1, .lshift 0 1].map fun i =>
      (responsesAfter (exec i pair)).map (·.map (·.status))) = List.replicate 7 (some [0]) := by decide
theorem witness_ConstructionsWriteOnlyTheReceiver :
    ([Instr.new 0 1, .parse 0 [0x31] 2].map fun i => (responsesAfter (exec i pair)).map (·.map (·.status))) =
      List.replicate 2 (some [0]) := by decide
theorem witness_OnlyConstructionWritesLengthAndValid :
    (nextOf (exec (.new 1 33) small)).isSome = true ∧ small.regs[1]? = some VReg.unconstructed ∧
    regAfter (exec (.new 1 33) small) 1 = some (vec 33 [0, 0]) := by decide
/-- Lengths 40 and 64 have two words each. -/
theorem witness_LengthMattersOnlyThroughWordCount :
    Instr.constructs (.and 0 1) = false ∧ pair.Holds 0 (vec 40 [0xFFFF0000, 0x000000FF]) ∧
    (64 + 31) / 32 = (vec 40 [0xFFFF0000, 0x000000FF]).wc ∧ (nextOf (exec (.and 0 1) pair)).isSome = true := by
  decide
theorem witness_RunAnswersEveryCommandOnce :
    small.settled = true ∧
    (∀ c ∈ [Command.mk 0x0000000100000004 [5], Command.mk 0x0000000000000005 []],
      payloadCount c.header ≤ c.payload.length) ∧
    small.payloadIn.length + ([9] : List Word).length < payloadCount 0x0000000200000004 ∧
    (nextOf (issue ⟨0x0000000100000004, [9, 8]⟩ small)).isSome = true ∧
    payloadCount 0x0000000100000004 ≤ small.payloadIn.length + ([9, 8] : List Word).length := by decide
theorem test_reset_settled : State.reset.settled = true := by decide

/-! ## Witnesses: storage and indexed access -/

/-- `CAP_WORDS` = 3: 97 bits are one word too many, 96 fit, 0 is legal. -/
theorem witness_NewConstructsZeroWords :
    (0 : RegNum).toNat < pair.regs.length ∧ (-1 : Int) < 0 ∧ pair.capWords = some 3 ∧ 3 < (97 + 31) / 32 ∧
    (96 + 31) / 32 ≤ 3 ∧ (0 + 31) / 32 ≤ 3 := by decide
theorem witness_GetReadsOneLogicalBit :
    pair.Holds 0 (vec 40 [0xFFFF0000, 0x000000FF]) ∧ ((-1 : Int) < 0 ∨ (40 : Int) ≤ -1) ∧
    ((40 : Int) < 0 ∨ ((vec 40 [0xFFFF0000, 0x000000FF]).length : Int) ≤ 40) ∧
    39 < (vec 40 [0xFFFF0000, 0x000000FF]).length := by decide
theorem witness_SetWritesOneLogicalBit :
    pair.Holds 0 (vec 40 [0xFFFF0000, 0x000000FF]) ∧ (vec 40 [0xFFFF0000, 0x000000FF]).sound = true ∧
    39 < (vec 40 [0xFFFF0000, 0x000000FF]).length ∧
    ((vec 40 [0xFFFF0000, 0x000000FF]).length : Int) ≤ 40 := by decide
theorem witness_GetAfterSetReadsTheValue :
    pair.Holds 0 (vec 40 [0xFFFF0000, 0x000000FF]) ∧ (vec 40 [0xFFFF0000, 0x000000FF]).sound = true ∧
    31 < (vec 40 [0xFFFF0000, 0x000000FF]).length ∧ 32 < (vec 40 [0xFFFF0000, 0x000000FF]).length ∧
    (nextOf (exec (.set 0 31 true) pair)).isSome = true := by decide
theorem witness_SetvalueReplacesEveryWord :
    ([1, 2] : List Word).length < 2 ^ 32 ∧ pair.Holds 0 (vec 40 [0xFFFF0000, 0x000000FF]) ∧
    ([1, 2, 3] : List Word).length ≠ (vec 40 [0xFFFF0000, 0x000000FF]).wc ∧
    ([1, 2] : List Word).length = (vec 40 [0xFFFF0000, 0x000000FF]).wc := by decide
theorem witness_WeightCountsEveryStorageBit : small.Holds 0 (vec 8 [0]) := by decide
theorem witness_WeightFitsItsField :
    pair.inv = true ∧ pair.Holds 0 (vec 40 [0xFFFF0000, 0x000000FF]) ∧ pair.capWords = some 3 := by decide
theorem witness_WeightAfterSettingDistinctBits :
    (0 : RegNum).toNat < pair.regs.length ∧ (40 + 31) / 32 ≤ 3 ∧ (nextOf (exec (.new 0 40) pair)).isSome = true ∧
    small.Holds 0 (vec 8 [0]) ∧ (vec 8 [0]).sound = true ∧ ([0, 3, 7] : List Nat).Nodup ∧
    (∀ i ∈ [0, 3, 7], i < (vec 8 [0]).length ∧ (vec 8 [0]).bit i = false) := by decide

/-! ## Witnesses: algebra and shift -/

theorem witness_NotComplementsEveryBit : small.Holds 0 (vec 8 [0]) := by decide
theorem witness_NotTwiceIsTheIdentity :
    small.Holds 0 (vec 8 [0]) ∧ (vec 8 [0]).sound = true ∧
    ((nextOf (exec (.not 0) small)).bind fun t => nextOf (exec (.not 0) t)).isSome = true := by decide
/-- The hypotheses of the statements on AND, OR and XOR, with lengths that differ (R146). -/
theorem witness_BinaryCombinesBitByBit :
    pair.Holds 0 (vec 40 [0xFFFF0000, 0x000000FF]) ∧ pair.Holds 1 (vec 64 [0x0F0F0F0F, 0xF0F0F0F0]) ∧
    (vec 40 [0xFFFF0000, 0x000000FF]).sound = true ∧ (vec 64 [0x0F0F0F0F, 0xF0F0F0F0]).sound = true ∧
    (vec 40 [0xFFFF0000, 0x000000FF]).wc = (vec 64 [0x0F0F0F0F, 0xF0F0F0F0]).wc ∧
    mismatched.Holds 0 (vec 40 [1, 2]) ∧ mismatched.Holds 1 (vec 32 [3]) ∧
    (vec 40 [1, 2]).wc ≠ (vec 32 [3]).wc := by decide
theorem witness_SameRegisterTwice : small.Holds 0 (vec 8 [0]) := by decide
/-- Amounts at the edge: 63 is legal on two words, 64 is not. -/
theorem witness_LshiftMovesEveryBit :
    shifted.Holds 0 (vec 64 [0x80000001, 0]) ∧ (vec 64 [0x80000001, 0]).sound = true ∧ (-1 : Int) < 0 ∧
    32 * (vec 64 [0x80000001, 0]).wc ≤ 64 ∧ 63 < 32 * (vec 64 [0x80000001, 0]).wc := by decide
theorem witness_LshiftIsTheBigIntegerShift :
    shifted.Holds 0 (vec 64 [0x80000001, 0]) ∧ (vec 64 [0x80000001, 0]).sound = true ∧
    63 < 32 * (vec 64 [0x80000001, 0]).wc := by decide
theorem witness_LshiftByZero :
    shifted.Holds 0 (vec 64 [0x80000001, 0]) ∧ (vec 64 [0x80000001, 0]).sound = true ∧
    1 ≤ (vec 64 [0x80000001, 0]).wc ∧ mismatched.Holds 2 (vec 0 []) ∧ (vec 0 []).wc = 0 := by decide

/-! ## Witnesses: text -/

theorem isPadWidth_16 : IsPadWidth 16 8 := by
  unfold IsPadWidth
  decide
theorem witness_TostringWritesFixedWidthTokens :
    small.Holds 0 (vec 8 [0]) ∧ 1 < 2 ∧ 36 < 37 ∧ 2 ≤ 16 ∧ 16 ≤ 36 ∧ IsPadWidth 16 8 :=
  ⟨by decide, by decide, by decide, by decide, by decide, isPadWidth_16⟩
theorem witness_TextLengthIsFixed :
    small.Holds 0 (vec 8 [0]) ∧ IsPadWidth 16 8 ∧
    textAfter (exec (.tostring 0 16) small) = some (List.replicate 8 0x30) :=
  ⟨by decide, isPadWidth_16, by decide⟩
/-- "zz" spells 1295 in radix 36 (V-P3). -/
theorem witness_spells_zz : Spells 36 [0x7A, 0x7A] 0x50F := ⟨[35, 35], by decide, by decide, by decide⟩
theorem witness_ParseBuildsTheSpelledWords :
    (0 : RegNum).toNat < small.regs.length ∧ (2 ≤ 36 ∧ 36 ≤ 36) ∧ (∀ c, small.capWords = some c → 1 ≤ c) ∧
    ([[0x7A, 0x7A]] : List (List Word)).length = ([0x50F] : List Word).length ∧
    (∀ (k : Nat) (tok : List Word) (x : Word), ([[0x7A, 0x7A]] : List (List Word))[k]? = some tok →
      ([0x50F] : List Word)[k]? = some x → tok ≠ [] ∧ Spells 36 (tok.map (·.toNat)) x.toNat) := by
  refine ⟨by decide, by decide, fun c h => (by cases h), rfl, ?_⟩
  intro k tok x ht hx
  match k with
  | 0 => cases ht; cases hx; exact ⟨by decide, witness_spells_zz⟩
  | k + 1 => cases ht
/-- A bad radix; an empty token between two spaces (V-P9); "12" in radix 2 (V-P13); four tokens of 1 for
`CAP_WORDS` = 3 (V-P21). -/
theorem witness_ParseRefusesInOrder :
    1 < 2 ∧ (∀ t ∈ ([[0x66, 0x66], [], [0x66, 0x66]] : List (List Word)), 0x20#32 ∉ t) ∧
    ([[0x66, 0x66], [], [0x66, 0x66]] : List (List Word)) ≠ [[]] ∧
    ([] : List Word) ∈ ([[0x66, 0x66], [], [0x66, 0x66]] : List (List Word)) ∧
    (∀ v, v < 2 ^ 32 → ¬ Spells 2 [0x31, 0x32] v) ∧
    pair.capWords = some 3 ∧ 3 < ([[0x31], [0x31], [0x31], [0x31]] : List (List Word)).length ∧
    (∃ v, v < 2 ^ 32 ∧ Spells 10 [0x31] v) := by
  refine ⟨by decide, by decide, by decide, by decide, ?_, by decide, by decide,
    ⟨1, by decide, [1], by decide, by decide, by decide⟩⟩
  rintro v _ ⟨ds, hlt, hmap, _⟩
  match ds with
  | [] => cases hmap
  | [_] => simp at hmap
  | a :: b :: c :: ds => simp at hmap
  | [a, b] =>
    have hb : b < 2 := hlt b (by simp)
    simp only [List.map_cons, List.map_nil, List.cons.injEq] at hmap
    have h2 := hmap.2.1
    match b, hb with
    | 0, _ => cases h2
    | 1, _ => cases h2
theorem witness_ParseUndoesTostring :
    pair.Holds 0 (vec 40 [0xFFFF0000, 0x000000FF]) ∧ (vec 40 [0xFFFF0000, 0x000000FF]).sound = true ∧
    (vec 40 [0xFFFF0000, 0x000000FF]).wc ≤ 3 ∧ (1 : RegNum).toNat < pair.regs.length ∧
    textAfter (exec (.tostring 0 16) pair) =
      some [0x30, 0x30, 0x30, 0x30, 0x30, 0x30, 0x66, 0x66, 0x20,
        0x66, 0x66, 0x66, 0x66, 0x30, 0x30, 0x30, 0x30] := by decide

end Sys2Proof.Tests
end

section
/-!
PROOFS of the family 30_encoding.md. What a command answers (`exec_answered`) and what a turn at the channels
comes to once its payload is in (`step_of_full`) are said once; the statements are read off.
-/
namespace Sys2Proof

/-! The opcode map and the payload count (R68, R70, R77) -/

theorem Op.ofCode_of_reserved {c : BitVec 4} (h : c = 0x0 ∨ c = 0xD ∨ c = 0xE ∨ c = 0xF) :
    Op.ofCode c = none := by
  rcases h with rfl | rfl | rfl | rfl <;> rfl

/-- The two operation codes with a payload are those of SETVALUE and PARSE (R68). -/
theorem Op.hasPayload_iff (op : Op) : op.hasPayload = true ↔ op.code = 0x4 ∨ op.code = 0xC := by
  cases op <;> decide

theorem payloadCount_of_reserved {h : Header} (hop : Op.ofCode (unpack h).op = none) : payloadCount h = 0 := by
  simp only [payloadCount, hop]

/-- The payload count by `OP` alone, as R77 words it. -/
theorem payloadCount_eq (h : Header) :
    payloadCount h =
      if (unpack h).op = 0x4 ∨ (unpack h).op = 0xC then (unpack h).arg.toNat else 0 := by
  cases hop : Op.ofCode (unpack h).op with
  | none =>
    have hno : ¬((unpack h).op = 0x4 ∨ (unpack h).op = 0xC) := by
      rintro (hc | hc) <;> rw [hc] at hop <;> cases hop
    rw [payloadCount_of_reserved hop, if_neg hno]
  | some op =>
    rw [(Op.ofCode_eq_some_iff _ _).mp hop]
    simp only [payloadCount, hop, Op.hasPayload_iff]

theorem decode_of_reserved {h : Header} (items : List Word) (hop : Op.ofCode (unpack h).op = none) :
    decode h items = .reject .reservedOpcode := by
  simp only [decode, hop]

end Sys2Proof

namespace Sys2Proof.Machine

/-! The fields of a response, whatever the outcome (R71, R73, R74) -/

theorem Reply.response_status_mem (r : Reply) :
    r.response.status ∈ [0x0#4, 0x1#4, 0x2#4, 0x3#4, 0x4#4, 0xF#4] := by
  rcases r with result | ⟨kind, _, _⟩ | _
  · cases result <;> simp [Reply.response, Response.zero]
  · cases kind <;> simp [Reply.response, ErrorKind.code]
  · simp [Reply.response]

theorem Reply.response_reason_toNat_le (r : Reply) : r.response.reason.toNat ≤ 7 := by
  rcases r with result | _ | reason
  · cases result <;> simp [Reply.response, Response.zero]
  · simp [Reply.response, Response.zero]
  · cases reason <;> simp [Reply.response, Reason.code]

theorem Reply.response_reason_ne_zero_iff (r : Reply) :
    r.response.reason ≠ 0 ↔ r.response.status = 0xF := by
  rcases r with result | ⟨kind, _, _⟩ | reason
  · cases result <;> simp [Reply.response, Response.zero]
  · cases kind <;> simp [Reply.response, Response.zero, ErrorKind.code]
  · cases reason <;> simp [Reply.response, Reason.code]

theorem Reply.response_error_status_ne (kind : ErrorKind) (a b : BitVec 32) :
    (Reply.error kind a b).response.status ≠ 0x0 ∧ (Reply.error kind a b).response.status ≠ 0xF := by
  cases kind <;> simp [Reply.response, ErrorKind.code]

/-- Only an error has diagnostic values (R201). -/
theorem Reply.response_info_eq_zero {r : Reply} (h : r.response.status = 0x0 ∨ r.response.status = 0xF) :
    r.response.info0 = 0 ∧ r.response.info1 = 0 := by
  rcases r with result | ⟨kind, a, b⟩ | _
  · cases result <;> exact ⟨rfl, rfl⟩
  · obtain ⟨hok, hrefused⟩ := Reply.response_error_status_ne kind a b
    exact absurd h (not_or.mpr ⟨hok, hrefused⟩)
  · exact ⟨rfl, rfl⟩

theorem countField_of_lt {n : Nat} (h : n < 2 ^ 32) : countField n = BitVec.ofNat 32 n := if_pos h

/-- `TLEN` counts the characters sent, none included, where 32 bits can show it (R75, R170). -/
theorem Reply.response_tlen {r : Reply} (h : r.chars.length < 2 ^ 32) :
    r.response.tlen = BitVec.ofNat 32 r.chars.length := by
  rcases r with result | _ | _
  · cases result with
    | text chars => exact countField_of_lt h
    | nothing => rfl
    | register => rfl
    | bit => rfl
    | count => rfl
  · rfl
  · rfl

/-! The answers a command can have (R60, R71, R72) -/

/-- The outcomes a command can have: any error and any refusal, and the one kind of result R60 gives it. -/
inductive Answers (i : Instr) : Reply → Prop
  | error (kind : ErrorKind) (a b : BitVec 32) : Answers i (.error kind a b)
  | refused (reason : Reason) : Answers i (.refused reason)
  | register (h : i.returnsReceiver = true) : Answers i (.ok (.register i.receiver))
  | nothing (h : i.returnsReceiver = false) : Answers i (.ok .nothing)
  | bit (vd : RegNum) (index : Int) (b : Bool) (h : i = .get vd index) : Answers i (.ok (.bit b))
  | count (vd : RegNum) (n : Nat) (h : i = .weight vd) : Answers i (.ok (.count n))
  | text (vd : RegNum) (radix : Nat) (chars : List Byte) (h : i = .tostring vd radix) :
    Answers i (.ok (.text chars))

/-- Only a command that returns its receiver, ending `OK`, names a register (R72). -/
theorem Answers.response_vreg {i : Instr} {r : Reply} (h : Answers i r) :
    r.response.vreg = if r.response.status = 0x0 ∧ i.returnsReceiver = true then i.receiver else 0 := by
  cases h with
  | error kind a b => exact (if_neg fun h => (Reply.response_error_status_ne kind a b).1 h.1).symm
  | refused reason => simp [Reply.response, Response.zero]
  | register h => simp [Reply.response, Response.zero, h]
  | nothing h => simp [Reply.response, Response.zero, h]
  | bit vd index b h => subst h; simp [Reply.response, Response.zero, Instr.returnsReceiver]
  | count vd n h => subst h; simp [Reply.response, Response.zero, Instr.returnsReceiver]
  | text vd radix chars h => subst h; simp [Reply.response, Response.zero, Instr.returnsReceiver]

/-- Only GET and WEIGHT, ending `OK`, return data (R104, R112). -/
theorem Answers.of_response_data_ne_zero {i : Instr} {r : Reply} (h : Answers i r)
    (hd : r.response.data ≠ 0) :
    r.response.status = 0x0 ∧ ∃ vd, i = .weight vd ∨ ∃ index, i = .get vd index := by
  cases h with
  | bit vd index b h => exact ⟨rfl, vd, .inr ⟨index, h⟩⟩
  | count vd n h => exact ⟨rfl, vd, .inl h⟩
  | error => exact absurd rfl hd
  | refused => exact absurd rfl hd
  | register => exact absurd rfl hd
  | nothing => exact absurd rfl hd
  | text => exact absurd rfl hd

/-- Only TOSTRING, ending `OK`, sends characters (R75, R170). -/
theorem Answers.of_chars_ne_nil {i : Instr} {r : Reply} (h : Answers i r) (hc : r.chars ≠ []) :
    r.response.status = 0x0 ∧ ∃ vd radix, i = .tostring vd radix := by
  cases h with
  | text vd radix chars h => exact ⟨rfl, vd, radix, h⟩
  | error => exact absurd rfl hc
  | refused => exact absurd rfl hc
  | register => exact absurd rfl hc
  | nothing => exact absurd rfl hc
  | bit => exact absurd rfl hc
  | count => exact absurd rfl hc

/-- The command has ended with one of its answers, and beside the registers only the output channels have
changed, by that one answer. -/
def Answered (i : Instr) (s : State) (o : Outcome) : Prop :=
  ∃ (regs : List VReg) (r : Reply), o = .next ({ s with regs := regs }.send r) ∧ Answers i r

section Endings
variable {i : Instr} {s : State}

theorem answered_raise (kind : ErrorKind) (a b : BitVec 32) : Answered i s (raise kind a b s) :=
  ⟨s.regs, _, rfl, .error kind a b⟩

theorem answered_refuse (reason : Reason) : Answered i s (refuse reason s) :=
  ⟨s.regs, _, rfl, .refused reason⟩

theorem answered_respond {result : Result} (h : Answers i (.ok result)) : Answered i s (respond result s) :=
  ⟨s.regs, _, rfl, h⟩

theorem answered_replaceWords {vd : RegNum} {r : VReg} {words : List Word} {result : Result}
    (h : Answers i (.ok result)) : Answered i s (replaceWords vd r words result s) :=
  ⟨(s.setReg vd { r with words := words }).regs, _, rfl, h⟩

theorem answered_construct {n : Nat} {words : List Word} (h : i.returnsReceiver = true) :
    Answered i s (construct i.receiver n words s) :=
  ⟨(s.setReg i.receiver { valid := true, length := n, words := words }).regs, _, rfl, .register h⟩

theorem answered_withTarget {vd : RegNum} {body : Outcome} (h : Answered i s body) :
    Answered i s (withTarget vd s body) := by
  rcases withTarget_cases vd s body with ⟨_, he⟩ | ⟨_, _, he⟩ <;> rw [he]
  · exact answered_refuse _
  · exact h

theorem answered_withReceiver {vd : RegNum} {body : VReg → Outcome} (h : ∀ r, Answered i s (body r)) :
    Answered i s (withReceiver vd s body) := by
  rcases withReceiver_cases vd s body with ⟨_, he⟩ | ⟨_, _, _, he⟩ | ⟨r, _, _, he⟩ <;> rw [he]
  · exact answered_refuse _
  · exact answered_refuse _
  · exact h r

theorem answered_combine (op : Word → Word → Word) (vs : RegNum) (h : i.returnsReceiver = true) :
    Answered i s (combine op i.receiver vs s) := by
  unfold combine
  rcases withPair_cases i.receiver vs s _ with ⟨_, he⟩ | ⟨_, _, _, _, _, he⟩ | ⟨r, o, _, _, _, _, he⟩ <;> rw [he]
  · exact answered_refuse _
  · exact answered_refuse _
  · split
    · exact answered_replaceWords (.register h)
    · exact answered_raise _ _ _

end Endings

/-- Every command ends, with exactly one of its answers (R71). -/
theorem exec_answered (i : Instr) (s : State) : Answered i s (exec i s) := by
  cases i with
  | new vd length =>
    refine answered_withTarget ?_
    split
    · exact answered_raise _ _ _
    · split
      · exact answered_refuse _
      · exact answered_construct (i := .new vd length) rfl
  | get vd index =>
    refine answered_withReceiver fun r => ?_
    split
    · exact answered_respond (.bit vd index _ rfl)
    · exact answered_raise _ _ _
  | set vd index value =>
    refine answered_withReceiver fun r => ?_
    split
    · exact answered_replaceWords (.nothing rfl)
    · exact answered_raise _ _ _
  | setvalue vd words =>
    refine answered_withReceiver fun r => ?_
    split
    · exact answered_replaceWords (.nothing rfl)
    · exact answered_raise _ _ _
  | weight vd => exact answered_withReceiver fun r => answered_respond (.count vd _ rfl)
  | not vd => exact answered_withReceiver fun r => answered_replaceWords (.register rfl)
  | and vd vs => exact answered_combine (i := .and vd vs) _ vs rfl
  | or vd vs => exact answered_combine (i := .or vd vs) _ vs rfl
  | xor vd vs => exact answered_combine (i := .xor vd vs) _ vs rfl
  | lshift vd n =>
    refine answered_withReceiver fun r => ?_
    split
    · exact answered_refuse _
    · split
      · exact answered_raise _ _ _
      · exact answered_replaceWords (.register rfl)
  | tostring vd radix =>
    refine answered_withReceiver fun r => ?_
    split
    · exact answered_respond (.text vd radix _ rfl)
    · exact answered_refuse _
  | parse vd text radix =>
    refine answered_withTarget ?_
    split
    · split
      · exact answered_refuse _
      · split
        · exact answered_refuse _
        · exact answered_construct (i := .parse vd text radix) rfl
    · exact answered_refuse _

/-- Settles O14: each field of the response is read off the answers a command can have. -/
theorem everyCommandAnswersExactlyOnce : Obligations.EveryCommandAnswersExactlyOnce := by
  intro i s
  obtain ⟨regs, r, he, ha⟩ := exec_answered i s
  exact ⟨_, r.response, r.chars, he, rfl, rfl, r.response_status_mem, r.response_reason_toNat_le,
    r.response_reason_ne_zero_iff, Reply.response_info_eq_zero, ha.response_vreg,
    ha.of_response_data_ne_zero, Reply.response_tlen, ha.of_chars_ne_nil⟩

/-! A turn at the channels (R77, R237, R238) -/

theorem State.outputsTaken_iff (s : State) :
    s.outputsTaken = true ↔ s.responseOut = [] ∧ s.payloadOut = [] := by
  simp [State.outputsTaken]

theorem fetch_of_waiting {s : State} (hr : s.resetIn = false) (hp : s.inProgress = none)
    (hw : s.outputsTaken = false) : fetch s = .hold s := by
  simp [fetch, hr, hp, hw]

theorem fetch_of_inProgress {s : State} {p : Pending} (hr : s.resetIn = false) (hp : s.inProgress = some p) :
    fetch s = acquire p s := by
  simp [fetch, hr, hp]

theorem fetch_of_ready {s : State} {h : Header} {hs : List Header} (hready : s.Ready)
    (hc : s.commandIn = h :: hs) :
    fetch s = acquire { header := h, items := [] } { s with commandIn := hs } := by
  obtain ⟨hr, hp, hresp, hpay⟩ := hready
  simp [fetch, hr, hp, (State.outputsTaken_iff s).mpr ⟨hresp, hpay⟩, hc]

/-- What is gathered falls short exactly when the items taken and those in the channel together do (R237). -/
theorem length_gathered_lt_iff (p : Pending) (s : State) :
    (gathered p s).length < payloadCount p.header ↔
      p.items.length + s.payloadIn.length < payloadCount p.header := by
  simp only [gathered, List.length_append, List.length_take]
  omega

theorem acquire_of_short {p : Pending} {s : State}
    (h : p.items.length + s.payloadIn.length < payloadCount p.header) :
    acquire p s =
      .hold { s.afterGathering p with inProgress := some { header := p.header, items := gathered p s } } :=
  if_pos ((length_gathered_lt_iff p s).mpr h)

/-- Once the payload is in, the turn ends with one answer, a refused header's included: the items up to the
count are off the channel, and beside the registers nothing else has changed (R77). -/
theorem step_of_full {s u : State} {p : Pending} (hf : fetch s = acquire p u)
    (h : payloadCount p.header ≤ p.items.length + u.payloadIn.length) :
    ∃ (regs : List VReg) (r : Reply),
      step s = .next ({ u.afterGathering p with regs := regs }.send r) := by
  rcases acquire_cases p u with ⟨hlt, _⟩ | ⟨_, _, ha⟩ | ⟨i, _, _, _, ha⟩
  · exact absurd ((length_gathered_lt_iff p u).mp hlt) (Nat.not_lt.mpr h)
  · exact ⟨u.regs, _, step_of_reject (hf.trans ha)⟩
  · obtain ⟨regs, r, he, _⟩ := exec_answered i (u.afterGathering p)
    exact ⟨regs, r, (step_of_run (hf.trans ha)).trans he⟩

/-- A turn that leaves a command in progress only takes payload (R77, R237). -/
theorem frame_of_acquire_stays_inProgress {s u t : State} {p q : Pending} (hf : fetch s = acquire p u)
    (ht : step s = .next t) (hq : t.inProgress = some q) :
    t.regs = u.regs ∧ t.responseOut = u.responseOut ∧ t.payloadOut = u.payloadOut := by
  rcases Nat.lt_or_ge (p.items.length + u.payloadIn.length) (payloadCount p.header) with hlt | hge
  · rw [step_of_hold (hf.trans (acquire_of_short hlt))] at ht
    cases ht
    exact ⟨rfl, rfl, rfl⟩
  · obtain ⟨regs, r, he⟩ := step_of_full hf hge
    rw [he] at ht
    cases ht
    cases hq

theorem frame_of_step_stays_inProgress {s t : State} {q : Pending} (hr : s.resetIn = false)
    (ht : step s = .next t) (hq : t.inProgress = some q) :
    t.regs = s.regs ∧ t.responseOut = s.responseOut ∧ t.payloadOut = s.payloadOut := by
  have hcase := fetch_cases s
  generalize hf : fetch s = f at hcase
  cases hcase with
  | inReset h => rw [hr] at h; cases h
  | idle =>
    rw [step_of_hold hf] at ht
    cases ht
    exact ⟨rfl, rfl, rfl⟩
  | resumed p => exact frame_of_acquire_stays_inProgress hf ht hq
  | accepted x xs => exact frame_of_acquire_stays_inProgress (u := { s with commandIn := xs }) hf ht hq

/-- Settles O8: R77's count goes by `OP` alone (`payloadCount_eq`), and a turn with the whole payload there
ends the same way whatever the outcome (`step_of_full`). -/
theorem payloadIsTakenWhateverTheOutcome : Obligations.PayloadIsTakenWhateverTheOutcome := by
  refine ⟨?waiting, ?accepted, ?resumed, fun s t p hr ht hp => frame_of_step_stays_inProgress hr ht hp⟩
  case waiting =>
    intro s t hr hp hout ht
    have hw : s.outputsTaken = false := by
      rw [Bool.eq_false_iff, Ne, State.outputsTaken_iff]
      exact not_and_or.mpr hout
    rw [step_of_hold (fetch_of_waiting hr hp hw)] at ht
    cases ht
    rfl
  case accepted =>
    intro s t h hs hready hc hlen ht
    rw [← payloadCount_eq] at hlen ⊢
    obtain ⟨regs, r, he⟩ := step_of_full (fetch_of_ready hready hc) (by simpa using hlen)
    rw [he] at ht
    cases ht
    obtain ⟨_, _, hresp, _⟩ := hready
    exact ⟨rfl, rfl, rfl, by simp [hresp]⟩
  case resumed =>
    intro s t p hr hp hop _ hlen ht
    have hcount : payloadCount p.header = (unpack p.header).arg.toNat := by
      rw [payloadCount_eq, if_pos hop]
    rw [← hcount] at hlen ⊢
    obtain ⟨regs, r, he⟩ := step_of_full (fetch_of_inProgress hr hp) hlen
    rw [he] at ht
    cases ht
    exact ⟨rfl, rfl, rfl, by simp⟩

theorem acquire_of_reserved {p : Pending} (s : State) (hop : Op.ofCode (unpack p.header).op = none) :
    acquire p s = .reject (s.afterGathering p) := by
  simp only [acquire, payloadCount_of_reserved hop, Nat.not_lt_zero, if_false, decode_of_reserved _ hop]

/-- Settles O10: a reserved code announces no payload and decodes to no command. -/
theorem reservedOpcodeIsRefused : Obligations.ReservedOpcodeIsRefused := by
  intro s h hs hready hc hop
  have hnone := Op.ofCode_of_reserved hop
  rw [step_of_reject ((fetch_of_ready hready hc).trans (acquire_of_reserved _ hnone))]
  obtain ⟨_, hp, hresp, hpay⟩ := hready
  simp [State.send, State.afterGathering, payloadCount_of_reserved hnone, Reply.response, Response.zero,
    Reason.code, Reply.chars, hp, hresp, hpay]

end Sys2Proof.Machine
end

section
/-!
PROOFS of the family 40_storage_indexed_access.md. Decoding a header with its unused fields zero, and what each of
NEW, GET, SET, SETVALUE and WEIGHT comes to on a register that admits it, are said once; the statements are read
off.
-/
namespace Sys2Proof

/-! Decoding by the fields (R63, R69, R77) -/

theorem decode_pack_of_no_payload {op : Op} {f : Fields} (items : List Word) (hop : f.op = op.code)
    (hu : unusedZero op.uses f = true) (hp : op.hasPayload = false) :
    decode (pack f) items = .instr (instrOf op f []) items := by
  simp [decode_pack, hop, hu, hp]

theorem decode_pack_of_payload {op : Op} {f : Fields} {payload : List Word} (rest : List Word)
    (hop : f.op = op.code) (hu : unusedZero op.uses f = true) (hp : op.hasPayload = true)
    (harg : f.arg.toNat = payload.length) :
    decode (pack f) (payload ++ rest) = .instr (instrOf op f payload) rest := by
  simp [decode_pack, hop, hu, hp, harg]

end Sys2Proof

namespace Sys2Proof.Machine

section Access
variable {s : State} {vd : RegNum} {r : VReg}

/-! The response and the register checks -/

/-- An outcome without a text goes to response-out alone (R75). -/
theorem State.send_of_no_chars {reply : Reply} (h : reply.chars = []) (s : State) :
    s.send reply = { s with responseOut := s.responseOut ++ [reply.response] } := by
  simp [State.send, h]

theorem State.Holds.withReceiver_eq (h : s.Holds vd r) (body : VReg → Outcome) :
    withReceiver vd s body = body r :=
  withReceiver_of_valid body h.1 h.2

/-- A register stays constructed, with its length, when its words are replaced and the command answers (R22). -/
theorem State.Holds.setReg_words_send (h : s.Holds vd r) (words : List Word) (reply : Reply) :
    ((s.setReg vd { r with words := words }).send reply).Holds vd { r with words := words } :=
  ⟨State.reg?_setReg_self h.1 _, h.2⟩

theorem withTarget_of_lt (h : vd.toNat < s.regs.length) (body : Outcome) : withTarget vd s body = body :=
  withTarget_of_some body (List.getElem?_eq_getElem h)

/-- The condition of `IndexOutOfRange` (R105, R107). -/
theorem inRange_eq_false_iff (index : Int) (r : VReg) :
    inRange index r = false ↔ index < 0 ∨ (r.length : Int) ≤ index := by
  simp only [inRange, decide_eq_false_iff_not]
  omega

theorem inRange_natCast_iff (i : Nat) (r : VReg) : inRange i r = true ↔ i < r.length := by
  simp [inRange]

/-- A logical bit of a sound register lies in one of its words (R23, R40). -/
theorem VReg.wordIndex_lt_of_sound (hv : r.valid = true) (hs : r.sound = true) {i : Nat} (hi : i < r.length) :
    i / 32 < r.words.length := by
  have hlen : r.words.length = r.wc := by simpa [VReg.sound, hv] using hs
  simp only [VReg.wc, wordCount] at hlen
  omega

/-! NEW (R100 to R103) -/

theorem exec_new_of_neg (hd : vd.toNat < s.regs.length) {n : Int} (hn : n < 0) :
    exec (.new vd n) s = .next (s.send (.error .invalidLength (argField n) 0)) :=
  (withTarget_of_lt hd _).trans (if_pos hn)

theorem exec_new_of_nat (hd : vd.toNat < s.regs.length) (n : Nat) :
    exec (.new vd n) s =
      if s.overCapacity (wordCount n) then refuse .capacity s
      else construct vd n (List.replicate (wordCount n) 0) s :=
  (withTarget_of_lt hd _).trans (if_neg (Int.not_lt.mpr (Int.natCast_nonneg n)))

/-! GET and SET (R104 to R108) -/

theorem exec_get_of_outOfRange (h : s.Holds vd r) {index : Int} (hi : index < 0 ∨ (r.length : Int) ≤ index) :
    exec (.get vd index) s = .next (s.send (.error .indexOutOfRange (argField index) 0)) :=
  (h.withReceiver_eq _).trans (if_neg (Bool.eq_false_iff.mp ((inRange_eq_false_iff index r).mpr hi)))

theorem exec_get_of_lt (h : s.Holds vd r) {i : Nat} (hi : i < r.length) :
    exec (.get vd i) s = .next (s.send (.ok (.bit (r.bit i)))) :=
  (h.withReceiver_eq _).trans (if_pos ((inRange_natCast_iff i r).mpr hi))

theorem exec_set_of_outOfRange (h : s.Holds vd r) {index : Int} (hi : index < 0 ∨ (r.length : Int) ≤ index)
    (b : Bool) : exec (.set vd index b) s = .next (s.send (.error .indexOutOfRange (argField index) 0)) :=
  (h.withReceiver_eq _).trans (if_neg (Bool.eq_false_iff.mp ((inRange_eq_false_iff index r).mpr hi)))

theorem exec_set_of_lt (h : s.Holds vd r) {i : Nat} (hi : i < r.length) (b : Bool) :
    exec (.set vd i b) s =
      .next ((s.setReg vd { r with words := setBit r.words i b }).send (.ok .nothing)) :=
  (h.withReceiver_eq _).trans (if_pos ((inRange_natCast_iff i r).mpr hi))

/-- SET's storage has the one bit written and every other bit, padding bits included, as before (R106). -/
theorem VReg.hasBits_setBit (hv : r.valid = true) (hs : r.sound = true) {i : Nat} (hi : i < r.length)
    (b : Bool) : r.HasBits (setBit r.words i b) fun j => if j = i then b else r.bit j :=
  ⟨length_setBit _ _ _, fun j _ => bit_setBit _ _ _ (VReg.wordIndex_lt_of_sound hv hs hi) j⟩

/-! SETVALUE (R109) -/

theorem exec_setvalue_of_ne (h : s.Holds vd r) {ws : List Word} (hl : ws.length ≠ r.wc) :
    exec (.setvalue vd ws) s =
      .next (s.send (.error .lengthMismatch (countField r.wc) (countField ws.length))) :=
  (h.withReceiver_eq _).trans (if_neg hl)

theorem exec_setvalue_of_eq (h : s.Holds vd r) {ws : List Word} (hl : ws.length = r.wc) :
    exec (.setvalue vd ws) s = .next ((s.setReg vd { r with words := ws }).send (.ok .nothing)) :=
  (h.withReceiver_eq _).trans (if_pos hl)

/-! WEIGHT (R112, R113) -/

/-- The sum over the words is the count over the bit indices: a storage's first 32 bit indices are those of its
word 0, and the rest are those of the other words, moved up by 32 (R40). -/
theorem weightOf_eq_countP (words : List Word) :
    weightOf words =
      (List.range (32 * words.length)).countP fun i => (words.getD (i / 32) 0).getLsbD (i % 32) := by
  induction words with
  | nil => rfl
  | cons x xs ih =>
    have hsum : weightOf (x :: xs) = popcount x + weightOf xs := by simp [weightOf]
    have hsplit : 32 * (x :: xs).length = 32 + 32 * xs.length := by
      rw [List.length_cons]
      omega
    rw [hsum, hsplit, List.range_add, List.countP_append, List.countP_map]
    refine congrArg₂ (· + ·) (List.countP_congr fun k hk => ?wordZero)
      (ih.trans (List.countP_congr fun k _ => ?otherWords))
    case wordZero =>
      have hlt : k < 32 := List.mem_range.mp hk
      simp [Nat.div_eq_of_lt hlt, Nat.mod_eq_of_lt hlt]
    case otherWords =>
      have hword : (32 + k) / 32 = k / 32 + 1 := by omega
      simp [hword]

theorem VReg.weightOf_words (r : VReg) : weightOf r.words = r.ones := weightOf_eq_countP r.words

theorem exec_weight (h : s.Holds vd r) : exec (.weight vd) s = .next (s.send (.ok (.count r.ones))) := by
  rw [← r.weightOf_words]
  exact h.withReceiver_eq _

end Access

/-! The statements -/

/-- Settles O31: the register is looked at for its number only, and the three clauses are `execNew`'s three
branches. -/
theorem newConstructsZeroWords : Obligations.NewConstructsZeroWords := by
  refine ⟨fun vd a items => ?encoding, fun s vd n hd hn => ?negative, fun s vd n c hd hc hlt => ?capacity,
    fun s vd n hd hfits => ?fresh⟩
  case encoding => exact decode_pack_of_no_payload (op := .new) items rfl rfl rfl
  case negative =>
    rw [exec_new_of_neg hd hn, State.send_of_no_chars rfl]
    rfl
  case capacity =>
    have hover : s.overCapacity (wordCount n) = true := (State.overCapacity_eq_true_iff s _).mpr ⟨c, hc, hlt⟩
    rw [exec_new_of_nat hd, if_pos hover, refuse_eq, State.send_of_no_chars rfl]
    rfl
  case fresh =>
    have hroom : s.overCapacity (wordCount n) = false := (State.overCapacity_eq_false_iff s _).mpr hfits
    rw [exec_new_of_nat hd, if_neg (Bool.eq_false_iff.mp hroom), construct_eq, State.send_of_no_chars rfl]
    rfl

/-- Settles O32: the two outcomes are the two sides of R105's range check. -/
theorem getReadsOneLogicalBit : Obligations.GetReadsOneLogicalBit := by
  refine ⟨fun vd a items => ?encoding, fun s vd r index h hi => ?outOfRange, fun s vd r i h hi => ?read⟩
  case encoding => exact decode_pack_of_no_payload (op := .get) items rfl rfl rfl
  case outOfRange =>
    rw [exec_get_of_outOfRange h hi, State.send_of_no_chars rfl]
    rfl
  case read =>
    rw [exec_get_of_lt h hi, State.send_of_no_chars rfl]
    rfl

/-- Settles O33: the range check as for GET, and the storage bit by bit (`VReg.hasBits_setBit`). -/
theorem setWritesOneLogicalBit : Obligations.SetWritesOneLogicalBit := by
  refine ⟨fun vd v a items => ?encoding, fun s vd r index b h hi => ?outOfRange,
    fun s vd r i b h hs hi => ⟨setBit r.words i b, ?written, VReg.hasBits_setBit h.2 hs hi b⟩⟩
  case encoding => exact decode_pack_of_no_payload (op := .set) items rfl rfl rfl
  case outOfRange =>
    rw [exec_set_of_outOfRange h hi, State.send_of_no_chars rfl]
    rfl
  case written =>
    rw [exec_set_of_lt h hi, State.send_of_no_chars rfl]
    rfl

/-- Settles O34: SET leaves a constructed register of the same length, and GET reads the bit that
`VReg.hasBits_setBit` gives of it. -/
theorem getAfterSetReadsTheValue : Obligations.GetAfterSetReadsTheValue := by
  intro s t vd r i b h hs hi ht
  rw [exec_set_of_lt h hi] at ht
  cases ht
  have hq := h.setReg_words_send (setBit r.words i b) (.ok .nothing)
  have hbits := VReg.hasBits_setBit h.2 hs hi b
  refine ⟨fun j hj => ?get, fun d hd => ?others, _, hq, rfl, hbits⟩
  case get =>
    have hbit : VReg.bit { r with words := setBit r.words i b } j = if j = i then b else r.bit j :=
      hbits.2 j (by have := VReg.wordIndex_lt_of_sound h.2 hs hj; omega)
    rw [exec_get_of_lt hq hj, hbit, State.send_of_no_chars rfl]
    rfl
  case others => simp [hd.symm]

/-- Settles O35: the payload is the words, and the two outcomes are the two sides of R109's check of their
count. -/
theorem setvalueReplacesEveryWord : Obligations.SetvalueReplacesEveryWord := by
  refine ⟨fun vd ws rest hlt => ?encoding, fun s vd r ws h hl => ?mismatch, fun s vd r ws h hl => ?replaced⟩
  case encoding => exact decode_pack_of_payload (op := .setvalue) rest rfl rfl rfl (by simpa using hlt)
  case mismatch =>
    rw [exec_setvalue_of_ne h hl, State.send_of_no_chars rfl]
    rfl
  case replaced =>
    rw [exec_setvalue_of_eq h hl, State.send_of_no_chars rfl]
    rfl

/-- Settles O36: WEIGHT's sum of word counts is the count over the bit indices (`weightOf_eq_countP`). -/
theorem weightCountsEveryStorageBit : Obligations.WeightCountsEveryStorageBit := by
  refine ⟨fun vd items => ?encoding, fun s vd r h => ⟨countField r.ones, ?answer, countField_of_lt⟩⟩
  case encoding => exact decode_pack_of_no_payload (op := .weight) items rfl rfl rfl
  case answer =>
    rw [exec_weight h, State.send_of_no_chars rfl]
    rfl

end Sys2Proof.Machine
end

section
/-!
PROOFS of the family 41_bitwise_algebra.md. What NOT comes to on a constructed register, and what `combine` (AND, OR
and XOR) comes to on two of them, are said once for every combining function; the bits of the words follow from the
function's own bits.
-/
namespace Sys2Proof.Machine

section Algebra
variable {s : State} {vd vs : RegNum} {r o : VReg}

/-! NOT (R141) -/

theorem exec_not (h : s.Holds vd r) :
    exec (.not vd) s =
      .next ((s.setReg vd { r with words := r.words.map fun x => ~~~x }).send (.ok (.register vd))) :=
  h.withReceiver_eq _

/-- NOT's storage has every bit complemented, padding bits included (R141, R148). -/
theorem VReg.hasBits_map_not (r : VReg) : r.HasBits (r.words.map fun x => ~~~x) fun j => !r.bit j := by
  refine ⟨List.length_map _, fun j hj => ?_⟩
  have hk : j % 32 < 32 := Nat.mod_lt _ (by decide)
  simp [VReg.bit, List.getD_eq_getElem?_getD, List.getElem?_eq_getElem (bit_lt_capacity hj), hk]

/-! AND, OR and XOR (R142 to R146) -/

theorem State.Holds.withPair_eq (h : s.Holds vd r) (h' : s.Holds vs o) (body : VReg → VReg → Outcome) :
    withPair vd vs s body = body r o :=
  withPair_of_valid body h.1 h'.1 h.2 h'.2

/-- Different word counts: the error, with both counts, is all that happens (R145). -/
theorem combine_of_wc_ne (op : Word → Word → Word) (h : s.Holds vd r) (h' : s.Holds vs o) (hwc : r.wc ≠ o.wc) :
    combine op vd vs s = .next { s with
      responseOut := s.responseOut ++ [⟨0x3, 0, 0, 0, countField r.wc, countField o.wc, 0⟩] } := by
  have hraise : combine op vd vs s = .next (s.send (.error .lengthMismatch (countField r.wc) (countField o.wc))) :=
    (h.withPair_eq h' _).trans (if_neg hwc)
  rw [hraise, State.send_of_no_chars rfl]
  rfl

/-- Equal word counts: the receiver's words alone are replaced, whatever the lengths (R145, R146). -/
theorem combine_of_wc_eq (op : Word → Word → Word) (h : s.Holds vd r) (h' : s.Holds vs o) (hwc : r.wc = o.wc) :
    combine op vd vs s =
      .next ((s.setReg vd { r with words := List.zipWith op r.words o.words }).send (.ok (.register vd))) :=
  (h.withPair_eq h' _).trans (if_pos hwc)

/-- A register that answers a command with its number: the new state, field by field (R71, R72). -/
theorem State.setReg_send_register (s : State) (vd : RegNum) (q : VReg) :
    (s.setReg vd q).send (.ok (.register vd)) = { s with
      regs := s.regs.set vd.toNat q
      responseOut := s.responseOut ++ [⟨0x0, 0, vd, 0, 0, 0, 0⟩] } := by
  rw [State.send_of_no_chars rfl]
  rfl

/-- Sound registers of equal word counts hold equally many words (R23). -/
theorem length_words_eq_of_wc_eq (h : s.Holds vd r) (h' : s.Holds vs o) (hs : r.sound = true)
    (hs' : o.sound = true) (hwc : r.wc = o.wc) : r.words.length = o.words.length := by
  have hr : r.words.length = r.wc := by simpa [VReg.sound, h.2] using hs
  have ho : o.words.length = o.wc := by simpa [VReg.sound, h'.2] using hs'
  rw [hr, hwc, ho]

/-- A function that combines two words bit by bit combines two storages of one size bit by bit. -/
theorem VReg.hasBits_zipWith {op : Word → Word → Word} {f : Bool → Bool → Bool}
    (hop : ∀ x y k, (op x y).getLsbD k = f (x.getLsbD k) (y.getLsbD k))
    (hlen : r.words.length = o.words.length) :
    r.HasBits (List.zipWith op r.words o.words) fun j => f (r.bit j) (o.bit j) := by
  refine ⟨by rw [List.length_zipWith, ← hlen, Nat.min_self], fun j hj => ?_⟩
  have hr : j / 32 < r.words.length := bit_lt_capacity hj
  have ho : j / 32 < o.words.length := hlen ▸ hr
  simp [VReg.bit, List.getD_eq_getElem?_getD, List.getElem?_zipWith, List.getElem?_eq_getElem hr,
    List.getElem?_eq_getElem ho, hop]

/-- What AND, OR and XOR come to on sound registers of equal word counts, for any function of the bits. -/
theorem combine_bits {op : Word → Word → Word} {f : Bool → Bool → Bool}
    (hop : ∀ x y k, (op x y).getLsbD k = f (x.getLsbD k) (y.getLsbD k)) (h : s.Holds vd r) (h' : s.Holds vs o)
    (hs : r.sound = true) (hs' : o.sound = true) (hwc : r.wc = o.wc) :
    ∃ ws, combine op vd vs s = .next { s with
        regs := s.regs.set vd.toNat { r with words := ws }
        responseOut := s.responseOut ++ [⟨0x0, 0, vd, 0, 0, 0, 0⟩] } ∧
      r.HasBits ws fun j => f (r.bit j) (o.bit j) :=
  ⟨_, by rw [combine_of_wc_eq op h h' hwc, State.setReg_send_register],
    VReg.hasBits_zipWith hop (length_words_eq_of_wc_eq h h' hs hs' hwc)⟩

/-- AND, OR and XOR differ in the combining function alone. -/
theorem exec_eq_combine {i : Instr} (hi : i = .and vd vs ∨ i = .or vd vs ∨ i = .xor vd vs) :
    ∃ op, ∀ s, exec i s = combine op vd vs s := by
  rcases hi with rfl | rfl | rfl <;> exact ⟨_, fun _ => rfl⟩

end Algebra

/-! The statements -/

/-- Settles O40: the storage, bit by bit, is `VReg.hasBits_map_not`. -/
theorem notComplementsEveryBit : Obligations.NotComplementsEveryBit := by
  refine ⟨fun vd items => ?encoding, fun s vd r h => ⟨_, ?complemented, r.hasBits_map_not⟩⟩
  case encoding => exact decode_pack_of_no_payload (op := .not) items rfl rfl rfl
  case complemented => rw [exec_not h, State.setReg_send_register]

/-- Settles O42: `combine` at the words' AND, whose bits are the ANDs of the bits. -/
theorem andCombinesBitByBit : Obligations.AndCombinesBitByBit :=
  ⟨fun _ _ items => decode_pack_of_no_payload (op := .and) items rfl rfl rfl,
    fun _ _ _ _ _ h h' => combine_of_wc_ne _ h h',
    fun _ _ _ _ _ => combine_bits fun _ _ _ => BitVec.getLsbD_and⟩

/-- Settles O43: `combine` at the words' OR, whose bits are the ORs of the bits. -/
theorem orCombinesBitByBit : Obligations.OrCombinesBitByBit :=
  ⟨fun _ _ items => decode_pack_of_no_payload (op := .or) items rfl rfl rfl,
    fun _ _ _ _ _ h h' => combine_of_wc_ne _ h h',
    fun _ _ _ _ _ => combine_bits fun _ _ _ => BitVec.getLsbD_or⟩

/-- Settles O44: `combine` at the words' exclusive OR, whose bits are the exclusive ORs of the bits. -/
theorem xorCombinesBitByBit : Obligations.XorCombinesBitByBit :=
  ⟨fun _ _ items => decode_pack_of_no_payload (op := .xor) items rfl rfl rfl,
    fun _ _ _ _ _ h h' => combine_of_wc_ne _ h h',
    fun _ _ _ _ _ => combine_bits fun _ _ _ => BitVec.getLsbD_xor⟩

/-- Settles O45: both sides of `combine`'s check hold for every combining function; the registers after a success
are read through `setReg` (R28). -/
theorem binaryCheckIsOnWordCounts : Obligations.BinaryCheckIsOnWordCounts := by
  intro i s vd vs r o hi h h'
  obtain ⟨op, hexec⟩ := exec_eq_combine hi
  rw [hexec]
  refine ⟨combine_of_wc_ne op h h', fun hwc => ⟨_, _, combine_of_wc_eq op h h' hwc, ?response,
    h.setReg_words_send _ _, rfl, fun hne => ⟨?other, h'.2⟩⟩⟩
  case response => rfl
  case other => exact (State.reg?_setReg_of_ne s hne _).trans h'.1

end Sys2Proof.Machine
end

section
/-!
PROOFS of the family 42_shift.md. What LSHIFT comes to on a constructed register in each of R160's, R162's and R165's
cases is said once; the storage after a shift is known bit by bit, and a storage as one unsigned integer has the
storage's bits as its binary digits.
-/
namespace Sys2Proof.Machine

section Shift
variable {s : State} {vd : RegNum} {r : VReg} {n : Nat}

theorem VReg.length_words_of_sound (hv : r.valid = true) (hs : r.sound = true) : r.words.length = r.wc := by
  simpa [VReg.sound, hv] using hs

/-! The three outcomes of LSHIFT -/

theorem exec_lshift_of_neg (h : s.Holds vd r) {m : Int} (hm : m < 0) :
    exec (.lshift vd m) s = .next (s.send (.refused .badOperand)) :=
  (h.withReceiver_eq _).trans (if_pos hm)

/-- LSHIFT by a natural number is decided by the storage capacity alone (R165). -/
theorem exec_lshift_natCast (h : s.Holds vd r) (n : Nat) :
    exec (.lshift vd n) s =
      if 32 * r.wc ≤ n then .next (s.send (.error .shiftOverflow (BitVec.ofNat 32 n) 0))
      else .next ((s.setReg vd { r with words := shiftWords r.words r.wc n }).send (.ok (.register vd))) := by
  have hcheck : (n : Int) > 32 * (r.wc : Int) - 1 ↔ 32 * r.wc ≤ n := by omega
  have hexec : exec (.lshift vd n) s =
      if (n : Int) > 32 * (r.wc : Int) - 1 then raise .shiftOverflow (argField n) 0 s
      else replaceWords vd r (shiftWords r.words r.wc n) (.register vd) s :=
    (h.withReceiver_eq _).trans (if_neg (Int.not_lt.mpr (Int.natCast_nonneg n)))
  rw [hexec]
  simp only [hcheck, argField, BitVec.ofInt_natCast]
  rfl

theorem exec_lshift_of_capacity_le (h : s.Holds vd r) (hn : 32 * r.wc ≤ n) :
    exec (.lshift vd n) s =
      .next { s with responseOut := s.responseOut ++ [⟨0x4, 0, 0, 0, BitVec.ofNat 32 n, 0, 0⟩] } := by
  rw [exec_lshift_natCast h, if_pos hn, State.send_of_no_chars rfl]
  rfl

theorem exec_lshift_of_lt_capacity (h : s.Holds vd r) (hn : n < 32 * r.wc) :
    exec (.lshift vd n) s = .next { s with
      regs := s.regs.set vd.toNat { r with words := shiftWords r.words r.wc n }
      responseOut := s.responseOut ++ [⟨0x0, 0, vd, 0, 0, 0, 0⟩] } := by
  rw [exec_lshift_natCast h, if_neg (Nat.not_le.mpr hn), State.setReg_send_register]

/-! The storage after a shift, bit by bit (R160) -/

theorem VReg.hasBits_shiftWords (hv : r.valid = true) (hs : r.sound = true) (n : Nat) :
    r.HasBits (shiftWords r.words r.wc n) fun j => decide (n ≤ j) && r.bit (j - n) := by
  have hlen := VReg.length_words_of_sound hv hs
  refine ⟨(length_shiftWords _ _ _).trans hlen.symm, fun j hj => ?_⟩
  have hword : (shiftWords r.words r.wc n).getD (j / 32) 0 = shiftedWord r.words n (j / 32) := by
    rw [List.getD_eq_getElem?_getD, getElem?_shiftWords, if_pos (bit_lt_capacity (hlen ▸ hj)), Option.getD_some]
  rw [hword, getLsbD_shiftedWord _ _ _ _ (Nat.mod_lt _ (by decide)), Nat.div_add_mod]
  rfl

/-- A shift by 0 moves no word (R163, R166). -/
theorem shiftWords_zero (words : List Word) : shiftWords words words.length 0 = words := by
  refine List.ext_getElem? fun i => ?_
  rw [getElem?_shiftWords]
  by_cases hi : i < words.length
  · simp [hi, shiftedWord, srcWord]
  · simp [hi]

/-! The storage as one unsigned integer (R161) -/

/-- Binary digit `j` of the whole word array is bit `j` of the storage (R7, R41). -/
theorem testBit_vectorValue (words : List Word) (j : Nat) :
    (vectorValue words).testBit j = (words.getD (j / 32) 0).getLsbD (j % 32) := by
  induction words generalizing j with
  | nil => simp [vectorValue]
  | cons x xs ih =>
    rw [vectorValue, Nat.add_comm, Nat.testBit_two_pow_mul_add _ x.isLt]
    split
    case isTrue hlt => simp [Nat.div_eq_of_lt hlt, Nat.mod_eq_of_lt hlt, BitVec.getLsbD]
    case isFalse hge =>
      have hword : j / 32 = (j - 32) / 32 + 1 := by omega
      have hplace : j % 32 = (j - 32) % 32 := by omega
      rw [ih, hword, hplace, List.getD_cons_succ]

/-- Words whose bits are the binary digits of `v` hold `v`, cut off at the storage's capacity. -/
theorem VReg.HasBits.vectorValue_eq {words : List Word} {v : Nat} (h : r.HasBits words v.testBit) :
    vectorValue words = v % 2 ^ (32 * r.words.length) := by
  obtain ⟨hlen, hbits⟩ := h
  refine Nat.eq_of_testBit_eq fun j => ?_
  rw [testBit_vectorValue, Nat.testBit_mod_two_pow]
  by_cases hj : j < 32 * r.words.length
  · rw [hbits j hj, decide_eq_true hj, Bool.true_and]
  · have hout : words.length ≤ j / 32 := by omega
    rw [List.getD_eq_default _ _ hout, decide_eq_false hj, Bool.false_and]
    exact BitVec.getLsbD_zero

theorem VReg.vectorValue_shiftWords (hv : r.valid = true) (hs : r.sound = true) (n : Nat) :
    vectorValue (shiftWords r.words r.wc n) = vectorValue r.words * 2 ^ n % 2 ^ (32 * r.wc) := by
  have hdigits : (fun j => decide (n ≤ j) && r.bit (j - n)) = (vectorValue r.words * 2 ^ n).testBit := by
    funext j
    rw [Nat.testBit_mul_two_pow, testBit_vectorValue]
    rfl
  have hbits := VReg.hasBits_shiftWords hv hs n
  rw [hdigits] at hbits
  rw [hbits.vectorValue_eq, VReg.length_words_of_sound hv hs]

end Shift

/-! The statements -/

/-- Settles O47: a negative amount, one past the capacity, and one within it, whose storage is
`VReg.hasBits_shiftWords`. -/
theorem lshiftMovesEveryBit : Obligations.LshiftMovesEveryBit := by
  refine ⟨fun vd a items => ?encoding, fun s vd r n h hn => ?negative,
    fun s vd r n h => exec_lshift_of_capacity_le h,
    fun s vd r n h hs hn => ⟨_, exec_lshift_of_lt_capacity h hn, VReg.hasBits_shiftWords h.2 hs n⟩⟩
  case encoding => exact decode_pack_of_no_payload (op := .lshift) items rfl rfl rfl
  case negative =>
    rw [exec_lshift_of_neg h hn, State.send_of_no_chars rfl]
    rfl

/-- Settles O48: multiplying by `2^n` moves the binary digits as LSHIFT moves the bits of the storage. -/
theorem lshiftIsTheBigIntegerShift : Obligations.LshiftIsTheBigIntegerShift :=
  fun _ _ _ n h hs hn => ⟨_, exec_lshift_of_lt_capacity h hn, (VReg.hasBits_shiftWords h.2 hs n).1,
    VReg.vectorValue_shiftWords h.2 hs n⟩

/-- Settles O49: with words, the shift by 0 writes back the words that were there; without, every amount is past
the capacity. -/
theorem lshiftByZero : Obligations.LshiftByZero := by
  refine ⟨fun s vd r h hs hwc => ?identity, fun s vd r n h hwc => ?noWords⟩
  case identity =>
    have hwords : shiftWords r.words r.wc 0 = r.words := by
      rw [← VReg.length_words_of_sound h.2 hs, shiftWords_zero]
    have hregs : s.regs.set vd.toNat r = s.regs := by
      obtain ⟨hlt, hget⟩ := List.getElem?_eq_some_iff.mp h.1
      rw [← hget, List.set_getElem_self]
    have hexec := exec_lshift_of_lt_capacity h (n := 0) (by omega)
    rw [hwords, hregs] at hexec
    exact hexec
  case noWords => exact exec_lshift_of_capacity_le h (by omega)

end Sys2Proof.Machine
end

section
/-!
PROOFS of the family 43_text_serialization.md. The statements' words for a text and the model's functions on it are
tied once: `Spells` (R172, R182) to a run of digit characters and so to what `tokenWord` reads, `IsPadWidth` (R171)
to `padWidth`, and joined tokens (R174, R180) to what `tokensOf` cuts. The commands' outcomes are read off.
-/
namespace Sys2Proof.Machine

/-! Digit characters and numerals (R172, R173, R182) -/

theorem digitAlphabet_eq : digitAlphabet = (List.range 36).map digitCode := rfl

theorem digitAlphabet_getElem? {d : Nat} (h : d < 36) : digitAlphabet[d]? = some (digitCode d) := by
  simp [digitAlphabet_eq, List.getElem?_range h]

/-- Spelling a number is writing its digits' characters. -/
theorem spells_iff {r : Nat} (hr : r ≤ 36) (codes : List Nat) (v : Nat) :
    Spells r codes v ↔ ∃ ds, (∀ d ∈ ds, d < r) ∧ codes = ds.map digitCode ∧ numeral r ds = v := by
  refine exists_congr fun ds => and_congr_right fun hds => and_congr_left fun _ => ?_
  have hcodes : ds.map (fun d => digitAlphabet[d]?) = (ds.map digitCode).map some := by
    rw [List.map_map]
    exact List.map_congr_left fun d hd => digitAlphabet_getElem? (Nat.lt_of_lt_of_le (hds d hd) hr)
  rw [hcodes, (Option.some_injective Nat).list_map.eq_iff]

/-- Characters have digit values exactly when they are those digits' characters. -/
theorem map_digitValue_eq_iff (codes ds : List Nat) :
    codes.map digitValue = ds.map some ↔ (∀ d ∈ ds, d < 36) ∧ codes = ds.map digitCode := by
  induction codes generalizing ds with
  | nil => cases ds <;> simp
  | cons c codes ih =>
    cases ds with
    | nil => simp
    | cons d ds =>
      simp only [List.map_cons, List.cons.injEq, ih, digitValue_eq_some_iff, List.forall_mem_cons]
      tauto

/-- What `digitsNumber` reads is what the characters spell. -/
theorem digitsNumber_eq_some_iff {r : Nat} (hr : r ≤ 36) (tok : List Word) (v : Nat) :
    digitsNumber r tok 0 = some v ↔ Spells r (tok.map (·.toNat)) v := by
  have hvalues : tok.map (fun c => digitValue c.toNat) = (tok.map (·.toNat)).map digitValue := by
    rw [List.map_map]
    rfl
  rw [spells_iff hr]
  constructor
  · intro h
    obtain ⟨ds, hdigits, hlt, hv⟩ := digits_of_digitsNumber h
    rw [hvalues, map_digitValue_eq_iff] at hdigits
    exact ⟨ds, hlt, hdigits.2, by simpa using hv.symm⟩
  · rintro ⟨ds, hlt, hcodes, hv⟩
    have hdigits : tok.map (fun c => digitValue c.toNat) = ds.map some :=
      hvalues.trans ((map_digitValue_eq_iff _ _).mpr ⟨fun d hd => Nat.lt_of_lt_of_le (hlt d hd) hr, hcodes⟩)
    simpa [hv] using digitsNumber_eq ds tok 0 hdigits hlt

/-! The tokens TOSTRING writes (R171, R173) -/

theorem padWidth_eq_of_isPadWidth {r w : Nat} (hr : 2 ≤ r) (h : IsPadWidth r w) : padWidth r = w := by
  obtain ⟨hle, hleast⟩ := h
  have hw : w < 33 := by
    by_contra hge
    exact absurd (hleast 32 (by omega)) (Nat.not_lt.mpr (Nat.pow_le_pow_left hr 32))
  have hfind : (List.range 33).find? (fun w => decide (2 ^ 32 ≤ r ^ w)) = some w :=
    List.find?_range_eq_some.mpr
      ⟨decide_eq_true hle, List.mem_range.mpr hw, fun v hv => by simpa using hleast v hv⟩
  rw [padWidth, hfind, Option.getD_some]

theorem map_toNat_token {r : Nat} (hr : 0 < r) (hr' : r ≤ 36) (x : Word) :
    (token x r).map (·.toNat) = (digitsAt r (padWidth r) x.toNat).map digitCode := by
  rw [token_eq, List.map_map]
  refine List.map_congr_left fun d hd => ?_
  have hcode : digitCode d < 256 := digitCode_lt (Nat.lt_of_lt_of_le (digitsAt_lt hr hd) hr')
  simpa using hcode

/-- A token has room for every word, so it spells its word. -/
theorem spells_token {r : Nat} (hr : 2 ≤ r) (hr' : r ≤ 36) (hroom : 2 ^ 32 ≤ r ^ padWidth r) (x : Word) :
    Spells r ((token x r).map (·.toNat)) x.toNat := by
  have hpos : 0 < r := by omega
  refine (spells_iff hr' _ _).mpr ⟨_, fun d => digitsAt_lt hpos, map_toNat_token hpos hr' x, ?_⟩
  rw [numeral_digitsAt, Nat.mod_eq_of_lt (Nat.lt_of_lt_of_le x.isLt hroom)]

/-! The tokens PARSE reads (R180, R182, R183) -/

theorem tokenWord_eq_some_iff {r : Nat} (hr : r ≤ 36) (tok : List Word) (x : Word) :
    tokenWord r tok = some x ↔ tok ≠ [] ∧ Spells r (tok.map (·.toNat)) x.toNat := by
  rw [← digitsNumber_eq_some_iff hr]
  cases tok with
  | nil => simp [tokenWord]
  | cons c cs =>
    cases hnum : digitsNumber r (c :: cs) 0 with
    | none => simp [tokenWord, hnum]
    | some v =>
      have hword : (v < 2 ^ 32 ∧ BitVec.ofNat 32 v = x) ↔ v = x.toNat := by bv_omega
      simpa [tokenWord, hnum] using hword

/-- A malformed token is an empty one, or one that spells no number a word can hold. -/
theorem tokenWord_eq_none_iff {r : Nat} (hr : r ≤ 36) (tok : List Word) :
    tokenWord r tok = none ↔ tok = [] ∨ ∀ v, v < 2 ^ 32 → ¬ Spells r (tok.map (·.toNat)) v := by
  rw [Option.eq_none_iff_forall_ne_some]
  simp only [ne_eq, tokenWord_eq_some_iff hr, not_and_or, not_not, forall_or_left]
  exact or_congr_right ⟨fun h v hv => h (BitVec.ofNatLT v hv), fun h x => h x.toNat x.isLt⟩

/-- One malformed token makes the whole text malformed. -/
theorem tokenWords_eq_none_iff (r : Nat) (toks : List (List Word)) :
    tokenWords r toks = none ↔ ∃ tok ∈ toks, tokenWord r tok = none := by
  induction toks with
  | nil => simp [tokenWords]
  | cons t ts ih =>
    rw [List.exists_mem_cons_iff, ← ih]
    cases ht : tokenWord r t <;> cases hts : tokenWords r ts <;> simp [tokenWords, ht, hts]

/-- Only the single empty token is lost when tokens are joined: its text is the empty one (R175, R180). -/
theorem tokensOf_intercalate {toks : List (List Word)} (hne : toks ≠ [[]]) (hsp : ∀ t ∈ toks, 0x20#32 ∉ t) :
    tokensOf (List.intercalate [0x20#32] toks) = toks := by
  by_cases hnil : toks = []
  · subst hnil
    rfl
  · have hcodes : ∀ t ∈ toks, ∀ c ∈ t, c.toNat ≠ spaceCode := fun t ht c hc hspace =>
      hsp t ht (BitVec.eq_of_toNat_eq (y := 0x20#32) hspace ▸ hc)
    have hcut : cutAtSpaces (List.intercalate [0x20#32] toks) = toks := cutAtSpaces_intercalate hnil hcodes
    have htext : List.intercalate [0x20#32] toks ≠ [] := fun hempty =>
      hne (by rw [← hcut, hempty]; rfl)
    simp [tokensOf, htext, hcut]

/-- No digit of a radix is the space. -/
theorem space_notMem_of_spells {r v : Nat} (hr : r ≤ 36) {tok : List Word}
    (h : Spells r (tok.map (·.toNat)) v) : 0x20#32 ∉ tok := by
  obtain ⟨ds, hlt, hcodes, -⟩ := (spells_iff hr _ _).mp h
  intro hmem
  have hspace : spaceCode ∈ ds.map digitCode := hcodes ▸ List.mem_map_of_mem hmem
  obtain ⟨d, hd, hcode⟩ := List.mem_map.mp hspace
  exact digitCode_ne_space (Nat.lt_of_lt_of_le (hlt d hd) hr) hcode

/-! The outcomes (R170, R176, R183, R185, R186) -/

/-- A refusal is its response and nothing else (R203, R204). -/
theorem refuse_eq_responseOut (reason : Reason) (s : State) :
    refuse reason s =
      .next { s with responseOut := s.responseOut ++ [⟨0xF, reason.code, 0, 0, 0, 0, 0⟩] } := by
  rw [refuse_eq, State.send_of_no_chars rfl]
  rfl

theorem radixOk_eq_true {radix : Nat} (h : 2 ≤ radix) (h' : radix ≤ 36) : radixOk radix = true :=
  decide_eq_true ⟨h, h'⟩

theorem not_radixOk {radix : Nat} (h : radix < 2 ∨ 36 < radix) : ¬ radixOk radix = true := by
  simp only [radixOk, decide_eq_true_eq]
  omega

section Outcomes
variable {s : State} {vd : RegNum} {r : VReg} {radix : Nat}

theorem exec_tostring_of_badRadix (h : s.Holds vd r) (hr : radix < 2 ∨ 36 < radix) :
    exec (.tostring vd radix) s = refuse .badRadix s :=
  (h.withReceiver_eq _).trans (if_neg (not_radixOk hr))

theorem exec_tostring (h : s.Holds vd r) (hr : 2 ≤ radix) (hr' : radix ≤ 36) :
    exec (.tostring vd radix) s = .next (s.send (.ok (.text (textOf r.words radix)))) :=
  (h.withReceiver_eq _).trans (if_pos (radixOk_eq_true hr hr'))

theorem exec_parse_of_badRadix (h : vd.toNat < s.regs.length) (text : List Word)
    (hr : radix < 2 ∨ 36 < radix) : exec (.parse vd text radix) s = refuse .badRadix s :=
  (withTarget_of_lt h _).trans (if_neg (not_radixOk hr))

theorem exec_parse_of_malformed (h : vd.toNat < s.regs.length) (hr : 2 ≤ radix) (hr' : radix ≤ 36)
    {text : List Word} (hbad : tokenWords radix (tokensOf text) = none) :
    exec (.parse vd text radix) s = refuse .badText s := by
  refine (withTarget_of_lt h _).trans ((if_pos (radixOk_eq_true hr hr')).trans ?_)
  rw [hbad]

theorem exec_parse_of_overCapacity (h : vd.toNat < s.regs.length) (hr : 2 ≤ radix) (hr' : radix ≤ 36)
    {text : List Word} (hgood : tokenWords radix (tokensOf text) ≠ none)
    (hcap : s.overCapacity (tokensOf text).length = true) :
    exec (.parse vd text radix) s = refuse .capacity s := by
  obtain ⟨xs, hxs⟩ := Option.ne_none_iff_exists'.mp hgood
  refine (withTarget_of_lt h _).trans ((if_pos (radixOk_eq_true hr hr')).trans ?_)
  rw [hxs]
  exact if_pos (length_tokenWords hxs ▸ hcap)

end Outcomes

/-! The statements -/

/-- Settles O50: the tokens are those of the words in reverse (`joinTokens_eq`), and each is as wide as `padWidth`
and spells its word (`spells_token`). -/
theorem tostringWritesFixedWidthTokens : Obligations.TostringWritesFixedWidthTokens := by
  refine ⟨fun vd x items => ?encoding, fun s vd r radix h hr => ?badRadix, fun s vd r radix w h hr hr' hw => ?text⟩
  case encoding => exact decode_pack_of_no_payload (op := .tostring) items rfl rfl rfl
  case badRadix => exact (exec_tostring_of_badRadix h hr).trans (refuse_eq_responseOut _ _)
  case text =>
    obtain rfl := padWidth_eq_of_isPadWidth hr hw
    refine ⟨r.words.reverse.map fun x => token x radix, _, ?answer, countField_of_lt, by simp,
      fun k x hx => ⟨token x radix, ?position, length_token x radix, spells_token hr hr' hw.1 x⟩⟩
    case answer =>
      rw [exec_tostring h hr hr', textOf, joinTokens_eq]
      rfl
    case position =>
      obtain ⟨hk, -⟩ := List.getElem?_eq_some_iff.mp hx
      rw [List.getElem?_map, List.getElem?_reverse' (j := k) (by omega), hx, Option.map_some]

/-- Settles O53: joined tokens are cut apart again (`tokensOf_intercalate`), so the text is malformed exactly when
one of them is, and its word count is theirs. -/
theorem parseRefusesInOrder : Obligations.ParseRefusesInOrder := by
  refine ⟨fun s vd text radix h hr => ?badRadix, fun s vd radix toks tok h hr hr' hsp hne hmem hbad => ?malformed,
    fun s vd radix c toks h hr hr' hc hlt hgood => ?tooMany⟩
  case badRadix => exact (exec_parse_of_badRadix h text hr).trans (refuse_eq_responseOut _ _)
  case malformed =>
    have hnone : tokenWords radix (tokensOf (List.intercalate [0x20#32] toks)) = none := by
      rw [tokensOf_intercalate hne hsp, tokenWords_eq_none_iff]
      exact ⟨tok, hmem, (tokenWord_eq_none_iff hr' tok).mpr hbad⟩
    exact (exec_parse_of_malformed h hr hr' hnone).trans (refuse_eq_responseOut _ _)
  case tooMany =>
    have htoks : tokensOf (List.intercalate [0x20#32] toks) = toks := by
      refine tokensOf_intercalate (fun heq => ?_) fun tok htok => ?_
      · exact (hgood [] (by simp [heq])).1 rfl
      · obtain ⟨-, v, -, hspells⟩ := hgood tok htok
        exact space_notMem_of_spells hr' hspells
    have hsome : tokenWords radix toks ≠ none := by
      rw [Ne, tokenWords_eq_none_iff]
      rintro ⟨tok, htok, hnone⟩
      obtain ⟨hnonempty, v, hv, hspells⟩ := hgood tok htok
      exact ((tokenWord_eq_none_iff hr' tok).mp hnone).elim hnonempty fun hno => hno v hv hspells
    have hcap : s.overCapacity toks.length = true := (State.overCapacity_eq_true_iff _ _).mpr ⟨c, hc, hlt⟩
    exact (exec_parse_of_overCapacity h hr hr' (htoks.symm ▸ hsome) (htoks.symm ▸ hcap)).trans
      (refuse_eq_responseOut _ _)

end Sys2Proof.Machine
end

section
/-!
PROOFS of the family 60_exceptions.md. The common checks every command starts with (`exec_checks`), the errors a
command can raise (`Raises`) and the ways it ends (`exec_ended`) are said once; the statements are read off.
-/
namespace Sys2Proof

/-! A command that does not use `VS` (R69, R205) -/

theorem Op.uses_vs_iff (op : Op) : op.uses.vs = true ↔ op.code ∈ [0x7#4, 0x8#4, 0x9#4] := by
  cases op <;> decide

/-- Outside the reserved codes every code names a command (R68, R70). -/
theorem Op.exists_ofCode_of_range (c : BitVec 4) (h : 1 ≤ c.toNat) (h' : c.toNat ≤ 12) :
    ∃ op, Op.ofCode c = some op := by
  have hall : ∀ c : BitVec 4, 1 ≤ c.toNat → c.toNat ≤ 12 → (Op.ofCode c).isSome = true := by decide
  exact Option.isSome_iff_exists.mp (hall c h h')

theorem unusedZero_of_vs_ne_zero {u : Uses} {f : Fields} (hu : u.vs = false) (hf : f.vs ≠ 0) :
    unusedZero u f = false := by
  have hvs : (u.vs || f.vs == 0) = false := by simpa [hu] using hf
  simp only [unusedZero, hvs, Bool.and_false, Bool.false_and]

theorem decode_of_nonZeroUnused {h : Header} {op : Op} (items : List Word)
    (hop : Op.ofCode (unpack h).op = some op) (hu : unusedZero op.uses (unpack h) = false) :
    decode h items = .reject .nonZeroUnused := by
  simp [decode, hop, hu]

/-- The operands of AND, OR and XOR are their receiver and their other register (R62). -/
theorem Instr.receiver_other_of_binary {i : Instr} {vd vs : RegNum}
    (hi : i = .and vd vs ∨ i = .or vd vs ∨ i = .xor vd vs) : i.receiver = vd ∧ i.other = some vs := by
  rcases hi with rfl | rfl | rfl <;> exact ⟨rfl, rfl⟩

end Sys2Proof

namespace Sys2Proof.Machine

/-! The common checks (R205, R206, R212) -/

/-- Every command starts with the checks of its register operands: NEW and PARSE with the receiver's number alone,
AND, OR and XOR with both registers, the other seven with the receiver. -/
theorem exec_checks (i : Instr) (s : State) :
    (i.constructs = true ∧ i.other = none ∧ ∃ body, exec i s = withTarget i.receiver s body) ∨
    (i.constructs = false ∧ i.other = none ∧ ∃ body, exec i s = withReceiver i.receiver s body) ∨
    (i.constructs = false ∧ ∃ vs, i.other = some vs ∧ ∃ body, exec i s = withPair i.receiver vs s body) := by
  cases i with
  | new => exact .inl ⟨rfl, rfl, _, rfl⟩
  | parse => exact .inl ⟨rfl, rfl, _, rfl⟩
  | get => exact .inr (.inl ⟨rfl, rfl, _, rfl⟩)
  | set => exact .inr (.inl ⟨rfl, rfl, _, rfl⟩)
  | setvalue => exact .inr (.inl ⟨rfl, rfl, _, rfl⟩)
  | weight => exact .inr (.inl ⟨rfl, rfl, _, rfl⟩)
  | not => exact .inr (.inl ⟨rfl, rfl, _, rfl⟩)
  | lshift => exact .inr (.inl ⟨rfl, rfl, _, rfl⟩)
  | tostring => exact .inr (.inl ⟨rfl, rfl, _, rfl⟩)
  | and vd vs => exact .inr (.inr ⟨rfl, vs, rfl, _, rfl⟩)
  | or vd vs => exact .inr (.inr ⟨rfl, vs, rfl, _, rfl⟩)
  | xor vd vs => exact .inr (.inr ⟨rfl, vs, rfl, _, rfl⟩)

theorem exec_of_badRegister {i : Instr} {s : State}
    (h : s.reg? i.receiver = none ∨ ∃ vs, i.other = some vs ∧ s.reg? vs = none) :
    exec i s = refuse .badRegister s := by
  rcases exec_checks i s with ⟨-, hother, body, he⟩ | ⟨-, hother, body, he⟩ | ⟨-, vs, hother, body, he⟩ <;> rw [he]
  · exact withTarget_of_none body (h.resolve_right (by simp [hother]))
  · exact withReceiver_of_none body (h.resolve_right (by simp [hother]))
  · exact withPair_of_none body (by simpa [hother] using h)

theorem exec_of_unconstructed {i : Instr} {s : State} {r : VReg} (hc : i.constructs = false)
    (hr : s.reg? i.receiver = some r) (hin : ∀ vs, i.other = some vs → vs.toNat < s.regs.length)
    (h : r.valid = false ∨ ∃ vs o, i.other = some vs ∧ s.reg? vs = some o ∧ o.valid = false) :
    exec i s = refuse .notConstructed s := by
  rcases exec_checks i s with ⟨hc', -⟩ | ⟨-, hother, body, he⟩ | ⟨-, vs, hother, body, he⟩
  · simp [hc] at hc'
  · rw [he]
    exact withReceiver_of_invalid body hr (h.resolve_right (by simp [hother]))
  · obtain ⟨o, ho⟩ : ∃ o, s.reg? vs = some o := ⟨_, List.getElem?_eq_getElem (hin vs hother)⟩
    rw [he]
    exact withPair_of_invalid body hr ho (by simpa [hother, ho] using h)

/-! The errors (R200, R201) -/

/-- The errors of a command whose common checks pass, each with its condition and its two diagnostic values. -/
inductive Raises (s : State) : Instr → ErrorKind → BitVec 32 → BitVec 32 → Prop
  | new {vd : RegNum} {n : Int} (hd : vd.toNat < s.regs.length) (hn : n < 0) :
    Raises s (.new vd n) .invalidLength (argField n) 0
  | get {vd : RegNum} {r : VReg} {index : Int} (h : s.Holds vd r) (hi : index < 0 ∨ (r.length : Int) ≤ index) :
    Raises s (.get vd index) .indexOutOfRange (argField index) 0
  | set {vd : RegNum} {r : VReg} {index : Int} {b : Bool} (h : s.Holds vd r)
    (hi : index < 0 ∨ (r.length : Int) ≤ index) : Raises s (.set vd index b) .indexOutOfRange (argField index) 0
  | setvalue {vd : RegNum} {r : VReg} {ws : List Word} (h : s.Holds vd r) (hl : ws.length ≠ r.wc) :
    Raises s (.setvalue vd ws) .lengthMismatch (countField r.wc) (countField ws.length)
  | binary {i : Instr} {vd vs : RegNum} {r o : VReg} (hi : i = .and vd vs ∨ i = .or vd vs ∨ i = .xor vd vs)
    (h : s.Holds vd r) (h' : s.Holds vs o) (hwc : r.wc ≠ o.wc) :
    Raises s i .lengthMismatch (countField r.wc) (countField o.wc)
  | lshift {vd : RegNum} {r : VReg} {n : Int} (h : s.Holds vd r) (hn : 0 ≤ n) (hcap : 32 * (r.wc : Int) - 1 < n) :
    Raises s (.lshift vd n) .shiftOverflow (argField n) 0

/-- Under its condition the error is raised, and nothing else happens. -/
theorem Raises.exec_eq {s : State} {i : Instr} {kind : ErrorKind} {a b : BitVec 32} (h : Raises s i kind a b) :
    exec i s = .next (s.send (.error kind a b)) := by
  cases h with
  | new hd hn => exact exec_new_of_neg hd hn
  | get h hi => exact exec_get_of_outOfRange h hi
  | set h hi => exact exec_set_of_outOfRange h hi _
  | setvalue h hl => exact exec_setvalue_of_ne h hl
  | binary hi h h' hwc =>
    obtain ⟨op, hexec⟩ := exec_eq_combine hi
    rw [hexec, combine_of_wc_ne op h h' hwc, State.send_of_no_chars rfl]
    rfl
  | lshift h hn hcap => exact (h.withReceiver_eq _).trans ((if_neg (Int.not_lt.mpr hn)).trans (if_pos hcap))

/-! The conditions and the values, error by error -/

section Errors
variable {s : State} {i : Instr} {kind : ErrorKind} {a b : BitVec 32}

theorem State.Holds.unique {d : RegNum} {r q : VReg} (h : s.Holds d r) (h' : s.Holds d q) : r = q :=
  Option.some.inj (h.1.symm.trans h'.1)

theorem exists_raises_invalidLength_iff :
    (∃ a b, Raises s i .invalidLength a b) ↔ ∃ vd n, i = .new vd n ∧ vd.toNat < s.regs.length ∧ n < 0 := by
  constructor
  · rintro ⟨a, b, h⟩
    cases h with
    | new hd hn => exact ⟨_, _, rfl, hd, hn⟩
  · rintro ⟨vd, n, rfl, hd, hn⟩
    exact ⟨_, _, .new hd hn⟩

theorem exists_raises_indexOutOfRange_iff :
    (∃ a b, Raises s i .indexOutOfRange a b) ↔
      ∃ vd r index, s.Holds vd r ∧ (i = .get vd index ∨ ∃ b, i = .set vd index b) ∧
        (index < 0 ∨ (r.length : Int) ≤ index) := by
  constructor
  · rintro ⟨a, b, h⟩
    cases h with
    | get hr hi => exact ⟨_, _, _, hr, .inl rfl, hi⟩
    | set hr hi => exact ⟨_, _, _, hr, .inr ⟨_, rfl⟩, hi⟩
  · rintro ⟨vd, r, index, hr, rfl | ⟨b, rfl⟩, hi⟩
    · exact ⟨_, _, .get hr hi⟩
    · exact ⟨_, _, .set hr hi⟩

theorem exists_raises_lengthMismatch_iff :
    (∃ a b, Raises s i .lengthMismatch a b) ↔
      (∃ vd r ws, s.Holds vd r ∧ i = .setvalue vd ws ∧ ws.length ≠ r.wc) ∨
      (∃ vd vs r o, s.Holds vd r ∧ s.Holds vs o ∧ (i = .and vd vs ∨ i = .or vd vs ∨ i = .xor vd vs) ∧
        r.wc ≠ o.wc) := by
  constructor
  · rintro ⟨a, b, h⟩
    cases h with
    | setvalue hr hl => exact .inl ⟨_, _, _, hr, rfl, hl⟩
    | binary hi hr ho hwc => exact .inr ⟨_, _, _, _, hr, ho, hi, hwc⟩
  · rintro (⟨vd, r, ws, hr, rfl, hl⟩ | ⟨vd, vs, r, o, hr, ho, hi, hwc⟩)
    · exact ⟨_, _, .setvalue hr hl⟩
    · exact ⟨_, _, .binary hi hr ho hwc⟩

theorem exists_raises_shiftOverflow_iff :
    (∃ a b, Raises s i .shiftOverflow a b) ↔
      ∃ vd r n, s.Holds vd r ∧ i = .lshift vd n ∧ 0 ≤ n ∧ 32 * (r.wc : Int) - 1 < n := by
  constructor
  · rintro ⟨a, b, h⟩
    cases h with
    | lshift hr hn hcap => exact ⟨_, _, _, hr, rfl, hn, hcap⟩
  · rintro ⟨vd, r, n, hr, rfl, hn, hcap⟩
    exact ⟨_, _, .lshift hr hn hcap⟩

theorem Raises.values_of_new {vd : RegNum} {n : Int} (h : Raises s i kind a b) (hi : i = .new vd n) :
    a = argField n ∧ b = 0 := by
  subst hi
  cases h with
  | new => exact ⟨rfl, rfl⟩
  | binary hi => simp at hi

theorem Raises.values_of_index {vd : RegNum} {index : Int} (h : Raises s i kind a b)
    (hi : i = .get vd index ∨ ∃ b, i = .set vd index b) : a = argField index ∧ b = 0 := by
  cases h with
  | get =>
    obtain ⟨-, rfl⟩ : _ = vd ∧ _ = index := by simpa using hi
    exact ⟨rfl, rfl⟩
  | set =>
    obtain ⟨-, rfl⟩ : _ = vd ∧ _ = index := by simpa using hi
    exact ⟨rfl, rfl⟩
  | binary hi' => rcases hi with rfl | ⟨b, rfl⟩ <;> simp at hi'
  | _ => simp at hi

theorem Raises.values_of_setvalue {vd : RegNum} {ws : List Word} {r : VReg} (h : Raises s i kind a b)
    (hi : i = .setvalue vd ws) (hr : s.Holds vd r) : a = countField r.wc ∧ b = countField ws.length := by
  subst hi
  cases h with
  | setvalue hr' => exact ⟨by rw [hr.unique hr'], rfl⟩
  | binary hi => simp at hi

theorem Raises.values_of_binary {vd vs : RegNum} {r o : VReg} (h : Raises s i kind a b)
    (hi : i = .and vd vs ∨ i = .or vd vs ∨ i = .xor vd vs) (hr : s.Holds vd r) (ho : s.Holds vs o) :
    a = countField r.wc ∧ b = countField o.wc := by
  obtain ⟨hreceiver, hother⟩ := Instr.receiver_other_of_binary hi
  cases h with
  | binary hi' hr' ho' =>
    obtain ⟨hreceiver', hother'⟩ := Instr.receiver_other_of_binary hi'
    obtain rfl := hreceiver.symm.trans hreceiver'
    obtain rfl := Option.some.inj (hother.symm.trans hother')
    exact ⟨by rw [hr.unique hr'], by rw [ho.unique ho']⟩
  | _ => cases hother

theorem Raises.values_of_lshift {vd : RegNum} {n : Int} (h : Raises s i kind a b) (hi : i = .lshift vd n) :
    a = argField n ∧ b = 0 := by
  subst hi
  cases h with
  | lshift => exact ⟨rfl, rfl⟩
  | binary hi => simp at hi

end Errors

/-! The ways a command ends (R200, R203, R204) -/

/-- A command ends `OK`, or with a refusal or an error and nothing else; NEW and PARSE do not refuse a register for
not being constructed (R206). -/
inductive Ended (i : Instr) (s : State) : Outcome → Prop
  | ok (u : State) (result : Result) (hout : u.responseOut = s.responseOut) :
    Ended i s (.next (u.send (.ok result)))
  | refused (reason : Reason) (h : reason = .notConstructed → i.constructs = false) :
    Ended i s (.next (s.send (.refused reason)))
  | error (kind : ErrorKind) (a b : BitVec 32) (h : Raises s i kind a b) :
    Ended i s (.next (s.send (.error kind a b)))

section Endings
variable {i : Instr} {s : State} {vd vs : RegNum}

theorem ended_withTarget {body : Outcome} (h : vd.toNat < s.regs.length → Ended i s body) :
    Ended i s (withTarget vd s body) := by
  rcases withTarget_cases vd s body with ⟨_, he⟩ | ⟨r, hr, he⟩ <;> rw [he]
  · exact .refused .badRegister nofun
  · exact h (List.getElem?_eq_some_iff.mp hr).1

theorem ended_withReceiver {body : VReg → Outcome} (hc : i.constructs = false)
    (h : ∀ r, s.Holds vd r → Ended i s (body r)) : Ended i s (withReceiver vd s body) := by
  rcases withReceiver_cases vd s body with ⟨_, he⟩ | ⟨_, _, _, he⟩ | ⟨r, hr, hv, he⟩ <;> rw [he]
  · exact .refused .badRegister nofun
  · exact .refused .notConstructed fun _ => hc
  · exact h r ⟨hr, hv⟩

theorem ended_combine (op : Word → Word → Word) (hi : i = .and vd vs ∨ i = .or vd vs ∨ i = .xor vd vs) :
    Ended i s (combine op vd vs s) := by
  unfold combine
  rcases withPair_cases vd vs s _ with ⟨_, he⟩ | ⟨_, _, _, _, _, he⟩ | ⟨r, o, hr, ho, hv, hv', he⟩ <;> rw [he]
  · exact .refused .badRegister nofun
  · exact .refused .notConstructed fun _ => by rcases hi with rfl | rfl | rfl <;> rfl
  · split
    case isTrue => exact .ok (s.setReg vd _) _ rfl
    case isFalse hwc => exact .error _ _ _ (.binary hi ⟨hr, hv⟩ ⟨ho, hv'⟩ hwc)

end Endings

/-- Every command ends in one of these ways. -/
theorem exec_ended (i : Instr) (s : State) : Ended i s (exec i s) := by
  cases i with
  | new vd length =>
    refine ended_withTarget fun hd => ?_
    split
    case isTrue hn => exact .error _ _ _ (.new hd hn)
    case isFalse =>
      split
      · exact .refused .capacity nofun
      · exact .ok (s.setReg vd _) _ rfl
  | get vd index =>
    refine ended_withReceiver rfl fun r h => ?_
    split
    case isTrue => exact .ok s _ rfl
    case isFalse hi => exact .error _ _ _ (.get h ((inRange_eq_false_iff _ _).mp (Bool.eq_false_iff.mpr hi)))
  | set vd index value =>
    refine ended_withReceiver rfl fun r h => ?_
    split
    case isTrue => exact .ok (s.setReg vd _) _ rfl
    case isFalse hi => exact .error _ _ _ (.set h ((inRange_eq_false_iff _ _).mp (Bool.eq_false_iff.mpr hi)))
  | setvalue vd words =>
    refine ended_withReceiver rfl fun r h => ?_
    split
    case isTrue => exact .ok (s.setReg vd _) _ rfl
    case isFalse hl => exact .error _ _ _ (.setvalue h hl)
  | weight vd => exact ended_withReceiver rfl fun r _ => .ok s _ rfl
  | not vd => exact ended_withReceiver rfl fun r _ => .ok (s.setReg vd _) _ rfl
  | and vd vs => exact ended_combine _ (.inl rfl)
  | or vd vs => exact ended_combine _ (.inr (.inl rfl))
  | xor vd vs => exact ended_combine _ (.inr (.inr rfl))
  | lshift vd n =>
    refine ended_withReceiver rfl fun r h => ?_
    split
    case isTrue => exact .refused .badOperand nofun
    case isFalse hn =>
      split
      case isTrue hcap => exact .error _ _ _ (.lshift h (Int.not_lt.mp hn) hcap)
      case isFalse => exact .ok (s.setReg vd _) _ rfl
  | tostring vd radix =>
    refine ended_withReceiver rfl fun r _ => ?_
    split
    · exact .ok s _ rfl
    · exact .refused .badRadix nofun
  | parse vd text radix =>
    refine ended_withTarget fun _ => ?_
    split
    · split
      · exact .refused .badText nofun
      · split
        · exact .refused .capacity nofun
        · exact .ok (s.setReg vd _) _ rfl
    · exact .refused .badRadix nofun

/-! The response a command has added -/

theorem Reply.response_ok_status (result : Result) : (Reply.ok result).response.status = 0 := by
  cases result <;> rfl

theorem Reply.response_ok_reason (result : Result) : (Reply.ok result).response.reason = 0 := by
  cases result <;> rfl

theorem ErrorKind.code_injective {k l : ErrorKind} (h : k.code = l.code) : k = l := by
  revert h
  cases k <;> cases l <;> decide

section Response
variable {i : Instr} {s t : State} {resp : Response}

/-- How the command ended, told by the response it has added. -/
theorem ended_cases (he : exec i s = .next t) (hresp : t.responseOut = s.responseOut ++ [resp]) :
    (∃ result, resp = (Reply.ok result).response) ∨
    (∃ reason, (reason = .notConstructed → i.constructs = false) ∧ resp = (Reply.refused reason).response ∧
      t = s.send (.refused reason)) ∨
    (∃ kind a b, Raises s i kind a b ∧ resp = (Reply.error kind a b).response ∧ t = s.send (.error kind a b)) := by
  have hend := exec_ended i s
  rw [he] at hend
  cases hend with
  | ok u result hout => exact .inl ⟨result, by simpa [hout] using hresp.symm⟩
  | refused reason h => exact .inr (.inl ⟨reason, h, by simpa using hresp.symm, rfl⟩)
  | error kind a b h => exact .inr (.inr ⟨kind, a, b, h, by simpa using hresp.symm, rfl⟩)

/-- An error or a refusal is its response and nothing else (R203). -/
theorem eq_of_exec_failure (he : exec i s = .next t) (hresp : t.responseOut = s.responseOut ++ [resp])
    (hfail : resp.status ≠ 0) : t = { s with responseOut := s.responseOut ++ [resp] } := by
  rcases ended_cases he hresp with ⟨result, rfl⟩ | ⟨reason, -, rfl, rfl⟩ | ⟨kind, a, b, -, rfl, rfl⟩
  · exact absurd (Reply.response_ok_status result) hfail
  · exact State.send_of_no_chars rfl s
  · exact State.send_of_no_chars rfl s

/-- A turn that answers with an error or a refusal changes no register, a refused header's included (R203). -/
theorem regs_of_acquire_failure {u : State} {p : Pending} (hf : fetch s = acquire p u) (ht : step s = .next t)
    (hresp : t.responseOut = u.responseOut ++ [resp]) (hfail : resp.status ≠ 0) : t.regs = u.regs := by
  rcases acquire_cases p u with ⟨_, ha⟩ | ⟨_, _, ha⟩ | ⟨i, _, _, _, ha⟩
  · rw [step_of_hold (hf.trans ha)] at ht
    cases ht
    rfl
  · rw [step_of_reject (hf.trans ha)] at ht
    cases ht
    rfl
  · rw [step_of_run (hf.trans ha)] at ht
    rw [eq_of_exec_failure ht hresp hfail]
    rfl

/-- An error's code in the response tells that its condition held, and the response shows its values. -/
theorem raises_of_status {kind : ErrorKind} (he : exec i s = .next t)
    (hresp : t.responseOut = s.responseOut ++ [resp]) (hk : resp.status = kind.code) :
    Raises s i kind resp.info0 resp.info1 := by
  obtain ⟨hok, hrefused⟩ := Reply.response_error_status_ne kind 0 0
  rcases ended_cases he hresp with ⟨result, rfl⟩ | ⟨reason, -, rfl, -⟩ | ⟨k, a, b, h, rfl, -⟩
  · exact absurd (hk.symm.trans (Reply.response_ok_status result)) hok
  · exact absurd hk.symm hrefused
  · obtain rfl := ErrorKind.code_injective hk
    exact h

theorem status_eq_code_iff (kind : ErrorKind) (he : exec i s = .next t)
    (hresp : t.responseOut = s.responseOut ++ [resp]) : resp.status = kind.code ↔ ∃ a b, Raises s i kind a b := by
  constructor
  · exact fun hk => ⟨_, _, raises_of_status he hresp hk⟩
  · rintro ⟨a, b, h⟩
    rw [h.exec_eq] at he
    cases he
    have hresponse : (Reply.error kind a b).response = resp := by simpa using hresp
    rw [← hresponse]
    rfl

end Response

/-! The statements -/

/-- Settles O15: a command that fails has only sent its response (`eq_of_exec_failure`), and a turn at the channels
changes a register only through the command it runs. -/
theorem failureChangesNoRegister : Obligations.FailureChangesNoRegister := by
  refine ⟨fun i s t resp => eq_of_exec_failure, fun s t resp hr ht hresp hfail => ?_⟩
  have hcase := fetch_cases s
  generalize hf : fetch s = f at hcase
  cases hcase with
  | inReset h => rw [hr] at h; cases h
  | idle =>
    rw [step_of_hold hf] at ht
    cases ht
    rfl
  | resumed p => exact regs_of_acquire_failure hf ht hresp hfail
  | accepted x xs => exact regs_of_acquire_failure (u := { s with commandIn := xs }) hf ht hresp hfail

/-- Settles O16: an error's code is in the response exactly when its condition holds (`status_eq_code_iff`), and the
response then shows the error's values (`raises_of_status`). -/
theorem errorKindsAreRaisedExactly : Obligations.ErrorKindsAreRaisedExactly := by
  intro i s t resp he hresp
  have hraised (kind : ErrorKind) (h : resp.status = kind.code) := raises_of_status he hresp h
  exact ⟨(status_eq_code_iff .invalidLength he hresp).trans exists_raises_invalidLength_iff,
    (status_eq_code_iff .indexOutOfRange he hresp).trans exists_raises_indexOutOfRange_iff,
    (status_eq_code_iff .lengthMismatch he hresp).trans exists_raises_lengthMismatch_iff,
    (status_eq_code_iff .shiftOverflow he hresp).trans exists_raises_shiftOverflow_iff,
    fun _ _ hi h => (hraised .invalidLength h).values_of_new hi,
    fun _ _ hi h => (hraised .indexOutOfRange h).values_of_index hi,
    fun _ _ _ hi hr h => (hraised .lengthMismatch h).values_of_setvalue hi hr,
    fun _ _ _ _ hi hr ho h => (hraised .lengthMismatch h).values_of_binary hi hr ho,
    fun _ _ hi h => (hraised .shiftOverflow h).values_of_lshift hi⟩

/-- Settles O17: the register numbers are checked first, by every command (`exec_of_badRegister`); a command that
does not use `VS` has it among its must-be-zero fields. -/
theorem badRegisterIsRefused : Obligations.BadRegisterIsRefused := by
  refine ⟨fun i s h => ?outOfRange, fun h items hlow hhigh hop hvs => ?unused⟩
  case outOfRange =>
    simp only [← State.reg?_eq_none_iff] at h
    exact (exec_of_badRegister h).trans (refuse_eq_responseOut _ _)
  case unused =>
    obtain ⟨op, hcode⟩ := Op.exists_ofCode_of_range _ hlow hhigh
    rw [(Op.ofCode_eq_some_iff _ _).mp hcode, ← Op.uses_vs_iff, Bool.not_eq_true] at hop
    exact decode_of_nonZeroUnused items hcode (unusedZero_of_vs_ne_zero hop hvs)

/-- Settles O18: the construction is checked right after the register numbers (`exec_of_unconstructed`), and NEW and
PARSE end in no way that gives the reason (`ended_cases`). -/
theorem unconstructedRegisterIsRefused : Obligations.UnconstructedRegisterIsRefused := by
  refine ⟨fun i s r hc hr hin h => ?refused, fun i s t resp hc he hresp => ?constructs⟩
  case refused => exact (exec_of_unconstructed hc hr hin h).trans (refuse_eq_responseOut _ _)
  case constructs =>
    rcases ended_cases he hresp with ⟨result, rfl⟩ | ⟨reason, hreason, rfl, -⟩ | ⟨kind, a, b, -, rfl, -⟩
    · simp [Reply.response_ok_reason]
    · cases reason with
      | notConstructed => simp [hc] at hreason
      | _ => simp [Reply.response, Reason.code]
    · simp [Reply.response, Response.zero]

end Sys2Proof.Machine
end

section
/-!
PROOFS on the encoding as a whole (30_encoding.md). The decoder's answers are said once (`decode_cases`); a command
and its fields determine each other (`instrOf_fields`, `fields_instrOf`); a row of the match and mask table covers
exactly the headers whose fields the decoder accepts for its command (`Op.row_covers_iff`).
-/
namespace Sys2Proof

/-! What the decoder answers (R69, R70, R77, R78) -/

/-- The four answers of the decoder, each with its condition. -/
inductive DecodeCase (h : Header) (items : List Word) : Decoded → Prop
  | reserved (hop : Op.ofCode (unpack h).op = none) : DecodeCase h items (.reject .reservedOpcode)
  | nonZeroUnused (op : Op) (hop : (unpack h).op = op.code) (hu : unusedZero op.uses (unpack h) = false) :
    DecodeCase h items (.reject .nonZeroUnused)
  | short (op : Op) (hop : (unpack h).op = op.code) (hu : unusedZero op.uses (unpack h) = true)
      (hl : items.length < payloadCount h) : DecodeCase h items (.reject .shortPayload)
  | instr (op : Op) (hop : (unpack h).op = op.code) (hu : unusedZero op.uses (unpack h) = true)
      (hl : payloadCount h ≤ items.length) :
    DecodeCase h items
      (.instr (instrOf op (unpack h) (items.take (payloadCount h))) (items.drop (payloadCount h)))

theorem decode_cases (h : Header) (items : List Word) : DecodeCase h items (decode h items) := by
  unfold decode
  split
  case h_1 hnone => exact .reserved hnone
  case h_2 op hsome =>
    have hop := (Op.ofCode_eq_some_iff _ op).mp hsome
    split
    case isFalse hu => exact .nonZeroUnused op hop (Bool.eq_false_iff.mpr hu)
    case isTrue hu =>
      split
      case isTrue hl => exact .short op hop hu hl
      case isFalse hl => exact .instr op hop hu (Nat.le_of_not_lt hl)

theorem decode_of_full {h : Header} {op : Op} {items : List Word} (hop : (unpack h).op = op.code)
    (hu : unusedZero op.uses (unpack h) = true) (hl : payloadCount h ≤ items.length) :
    decode h items =
      .instr (instrOf op (unpack h) (items.take (payloadCount h))) (items.drop (payloadCount h)) := by
  simp [decode, hop, hu, Nat.not_lt.mpr hl]

theorem payloadCount_of_op {h : Header} {op : Op} (hop : (unpack h).op = op.code) :
    payloadCount h = if op.hasPayload then (unpack h).arg.toNat else 0 := by
  simp [payloadCount, hop]

/-! A command and its fields (R61 to R69) -/

theorem toInt_ofInt_of_fitsSigned {n : Int} (h : fitsSigned n = true) : (BitVec.ofInt 32 n).toInt = n := by
  obtain ⟨hlow, hhigh⟩ : -2 ^ 31 ≤ n ∧ n < 2 ^ 31 := by simpa [fitsSigned] using h
  exact BitVec.toInt_ofInt_eq_self (by decide) hlow hhigh

theorem fitsSigned_toInt (a : BitVec 32) : fitsSigned a.toInt = true :=
  decide_eq_true ⟨a.le_toInt, a.toInt_lt⟩

theorem toNat_ofNat_of_fitsRadix {n : Nat} (h : fitsRadix n = true) : (BitVec.ofNat 6 n).toNat = n :=
  (BitVec.toNat_ofNat _ _).trans (Nat.mod_eq_of_lt (of_decide_eq_true h))

/-- The fields of a well-formed command name it again. -/
theorem instrOf_fields {i : Instr} (h : i.wellFormed = true) : instrOf i.op i.fields i.payload = i := by
  cases i with
  | new | get | lshift => simp [Instr.op, instrOf, Instr.fields, baseFields, toInt_ofInt_of_fitsSigned h]
  | set vd index value =>
    have hval : (BitVec.ofBool value == 1#1) = value := by cases value <;> rfl
    simp [Instr.op, instrOf, Instr.fields, baseFields, toInt_ofInt_of_fitsSigned h, hval]
  | tostring => simp [Instr.op, instrOf, Instr.fields, baseFields, toNat_ofNat_of_fitsRadix h]
  | parse =>
    have hradix := toNat_ofNat_of_fitsRadix (Bool.and_eq_true_iff.mp h).2
    simp [Instr.op, instrOf, Instr.fields, baseFields, Instr.payload, hradix]
  | setvalue | weight | not | and | or | xor => rfl

theorem unusedZero_iff (u : Uses) (f : Fields) :
    unusedZero u f = true ↔ f.rsv = 0 ∧ (u.vs = false → f.vs = 0) ∧ (u.radix = false → f.radix = 0) ∧
      (u.val = false → f.val = 0) ∧ (u.arg = false → f.arg = 0) := by
  simp only [unusedZero, Bool.and_eq_true, Bool.or_eq_true, beq_iff_eq, and_assoc, ← Bool.not_eq_true,
    or_iff_not_imp_left]

section Named
variable {op : Op} {f : Fields} {payload : List Word}

/-- The command named by fields that leave its unused ones zero has those fields: each field is an operand that reads
back, the payload's length, or zero (R63, R69). -/
theorem fields_instrOf (hop : f.op = op.code) (hu : unusedZero op.uses f = true)
    (hl : op.hasPayload = true → payload.length = f.arg.toNat) : (instrOf op f payload).fields = f := by
  have hval (v : BitVec 1) : BitVec.ofBool (v == 1#1) = v := by revert v; decide
  obtain ⟨hrsv, hvs, hradix, hvalue, harg⟩ := (unusedZero_iff _ _).mp hu
  obtain ⟨_, _, _, _, _, _, _⟩ := f
  cases op <;> simp_all [instrOf, Instr.fields, baseFields, Op.uses, Op.hasPayload]

theorem payload_instrOf (hl : op.hasPayload = false → payload = []) : (instrOf op f payload).payload = payload := by
  cases op with
  | setvalue | parse => rfl
  | _ => exact (hl rfl).symm

theorem wellFormed_instrOf (hl : op.hasPayload = true → payload.length = f.arg.toNat) :
    (instrOf op f payload).wellFormed = true := by
  have hcount (h : op.hasPayload = true) : fitsCount payload.length = true :=
    decide_eq_true (hl h ▸ f.arg.isLt)
  have hradix : fitsRadix f.radix.toNat = true := decide_eq_true f.radix.isLt
  cases op with
  | new | get | set | lshift => exact fitsSigned_toInt f.arg
  | setvalue => exact hcount rfl
  | tostring => exact hradix
  | parse => exact Bool.and_eq_true_iff.mpr ⟨hcount rfl, hradix⟩
  | weight | not | and | or | xor => rfl

theorem op_instrOf (op : Op) (f : Fields) (payload : List Word) : (instrOf op f payload).op = op := by
  cases op <;> rfl

end Named

/-- The header of a well-formed command announces exactly its payload, whichever command it is (R77). -/
theorem payloadCount_of_wellFormed {i : Instr} (h : i.wellFormed = true) :
    payloadCount (encode i).1 = i.payload.length := by
  cases i with
  | new => exact Laws.PayloadCount.new _ _ h
  | get => exact Laws.PayloadCount.get _ _ h
  | set => exact Laws.PayloadCount.set _ _ _ h
  | setvalue => exact Laws.PayloadCount.setvalue _ _ h
  | weight => exact Laws.PayloadCount.weight _ h
  | not => exact Laws.PayloadCount.not _ h
  | and => exact Laws.PayloadCount.and _ _ h
  | or => exact Laws.PayloadCount.or _ _ h
  | xor => exact Laws.PayloadCount.xor _ _ h
  | lshift => exact Laws.PayloadCount.lshift _ _ h
  | tostring => exact Laws.PayloadCount.tostring _ _ h
  | parse => exact Laws.PayloadCount.parse _ _ _ h

/-! The match and mask table (R68) -/

/-- The mask of a command, field by field: `OP`, `RSV` and every field the command does not use. -/
def Op.maskFields (op : Op) : Fields :=
  { op := BitVec.allOnes 4
    vd := 0
    vs := if op.uses.vs then 0 else BitVec.allOnes 4
    radix := if op.uses.radix then 0 else BitVec.allOnes 6
    val := if op.uses.val then 0 else BitVec.allOnes 1
    rsv := BitVec.allOnes 13
    arg := if op.uses.arg then 0 else BitVec.allOnes 32 }

/-- A command's row: its code in a header otherwise zero, and its mask. -/
def Op.row (op : Op) : OpcodeRow :=
  { op := op, value := pack (baseFields op 0), mask := pack op.maskFields }

/-- The table is that of the opcode map's columns. -/
theorem opcodeTable_eq : opcodeTable = Op.all.map Op.row := by decide

/-- A header matches a command's row exactly when it has the command's code and zeros in the unused fields. -/
theorem Op.row_covers_iff (op : Op) (h : Header) :
    op.row.covers h = true ↔ (unpack h).op = op.code ∧ unusedZero op.uses (unpack h) = true := by
  have hcovers : op.row.covers h = true ↔ unpack (h &&& pack op.maskFields) = baseFields op 0 := by
    rw [OpcodeRow.covers, beq_iff_eq, ← unpack_pack (baseFields op 0)]
    exact ⟨congrArg unpack, eq_of_unpack_eq⟩
  have hmask {w : Nat} (used : Bool) (x : BitVec w) :
      x &&& (if used then 0 else BitVec.allOnes w) = 0 ↔ (used = false → x = 0) := by
    cases used <;> simp
  have hvd : (unpack h).vd &&& 0 = 0 := BitVec.and_zero
  rw [hcovers, unpack_and, unpack_pack, unusedZero_iff]
  simp only [Op.maskFields, baseFields, Fields.mk.injEq, hmask, BitVec.and_allOnes, hvd]
  tauto

theorem Op.filter_all_eq (op : Op) : Op.all.filter (fun o => decide (o = op)) = [op] := by
  cases op <;> rfl

/-- Only one command's row can match: the rows differ in `OP` (R68). -/
theorem filter_opcodeTable_of_covers {op : Op} {h : Header} (hop : (unpack h).op = op.code)
    (hu : unusedZero op.uses (unpack h) = true) : opcodeTable.filter (fun row => row.covers h) = [op.row] := by
  have honly (o : Op) : o.row.covers h = decide (o = op) := by
    rw [Bool.eq_iff_iff, Op.row_covers_iff, decide_eq_true_iff]
    constructor
    · rintro ⟨ho, -⟩
      exact Option.some.inj ((Op.ofCode_code o).symm.trans (ho ▸ hop ▸ Op.ofCode_code op))
    · rintro rfl
      exact ⟨hop, hu⟩
  rw [opcodeTable_eq, List.filter_map]
  simp only [Function.comp_def, honly, Op.filter_all_eq, List.map_singleton]

theorem filter_opcodeTable_eq_nil {h : Header}
    (hno : ∀ op : Op, (unpack h).op = op.code → unusedZero op.uses (unpack h) = false) :
    opcodeTable.filter (fun row => row.covers h) = [] := by
  rw [opcodeTable_eq, List.filter_map, List.map_eq_nil_iff, List.filter_eq_nil_iff]
  intro op _ hcovers
  obtain ⟨hop, hu⟩ := (op.row_covers_iff h).mp hcovers
  simp [hno op hop] at hu

/-! The statements -/

/-- Settles O1: the encoded header announces the payload (`payloadCount_of_wellFormed`), and its fields name the
command (`instrOf_fields`). -/
theorem decodeUndoesEncode : Obligations.DecodeUndoesEncode := by
  intro i rest h
  have hunpack : unpack (encode i).1 = i.fields := unpack_pack i.fields
  have hcount := payloadCount_of_wellFormed h
  rw [decode_of_full (op := i.op) (by rw [hunpack, Instr.fields_op])
    (by rw [hunpack, Instr.fields_unusedZero]) (by rw [hcount]; simp [encode]), hunpack, hcount]
  simp [encode, instrOf_fields h]

/-- Settles O2: fields the decoder accepts are those of the command it names (`fields_instrOf`), and a header is the
packing of its fields. -/
theorem encodeUndoesDecode : Obligations.EncodeUndoesDecode := by
  intro h items i rest hd
  have hcase := decode_cases h items
  rw [hd] at hcase
  cases hcase with
  | instr op hop hu hl =>
    have hcount := payloadCount_of_op hop
    have hlen (hp : op.hasPayload = true) : (items.take (payloadCount h)).length = (unpack h).arg.toNat := by
      rw [List.length_take_of_le hl, hcount, if_pos hp]
    have hnil (hp : op.hasPayload = false) : items.take (payloadCount h) = [] := by
      simp [hcount, hp]
    refine ⟨wellFormed_instrOf hlen, ?header, ?items⟩
    case header => rw [encode, fields_instrOf hop hu hlen, pack_unpack]
    case items => rw [encode, payload_instrOf hnil, List.take_append_drop]

/-- Settles O3: the table's rows are told apart by `OP`, and each covers what the decoder accepts for its command. -/
theorem decoderAgreesWithOpcodeTable : Obligations.DecoderAgreesWithOpcodeTable := by
  intro h items
  have hcase := decode_cases h items
  generalize decode h items = d at hcase
  cases hcase with
  | reserved hop =>
    refine ⟨nofun, nofun, fun _ => filter_opcodeTable_eq_nil fun op hcode => ?_⟩
    rw [hcode, Op.ofCode_code] at hop
    cases hop
  | nonZeroUnused op hop hu =>
    refine ⟨nofun, nofun, fun _ => filter_opcodeTable_eq_nil fun o hcode => ?_⟩
    obtain rfl : op = o :=
      Option.some.inj ((Op.ofCode_code op).symm.trans (hop ▸ hcode ▸ Op.ofCode_code o))
    exact hu
  | short op hop hu hl =>
    rw [payloadCount_of_op hop] at hl
    have hp : op.hasPayload = true := by
      by_contra hno
      simp [hno] at hl
    exact ⟨nofun, fun _ => ⟨op.row, filter_opcodeTable_of_covers hop hu, hp, by simpa [hp] using hl⟩, by simp⟩
  | instr op hop hu hl =>
    refine ⟨fun i rest hi => ?_, nofun, by simp⟩
    cases hi
    rw [filter_opcodeTable_of_covers hop hu, op_instrOf]
    rfl

/-- Settles O4, by running the decoder on the eight headers. -/
theorem specHeadersDecodeAsWritten : Obligations.SpecHeadersDecodeAsWritten := by
  unfold Obligations.SpecHeadersDecodeAsWritten
  decide

end Sys2Proof
end

section
/-!
PROOFS on taking a command from the channels and on the reset input (30_encoding.md section 6,
70_reset_and_hazards.md). What a turn comes to with the payload there (`acquire_of_decode`) and with it short
(`acquire_of_short_eq`) is said once, for a fresh header and for a command in progress.
-/
namespace Sys2Proof

/-! The fields a command uses (R68, R69) -/

theorem Op.uses_radix_iff (op : Op) : op.uses.radix = true ↔ op.code ∈ [0xB#4, 0xC#4] := by
  cases op <;> decide

theorem Op.uses_val_iff (op : Op) : op.uses.val = true ↔ op.code = 0x3#4 := by
  cases op <;> decide

theorem Op.uses_arg_iff (op : Op) :
    op.uses.arg = true ↔ op.code ∈ [0x1#4, 0x2#4, 0x3#4, 0x4#4, 0xA#4, 0xC#4] := by
  cases op <;> decide

/-- The decoder looks at no item beyond the header's count (R77). -/
theorem decode_take_of_instr {h : Header} {items rest : List Word} {i : Instr}
    (hd : decode h items = .instr i rest) :
    payloadCount h ≤ items.length ∧ decode h (items.take (payloadCount h)) = .instr i [] ∧
      items.drop (payloadCount h) = rest := by
  have hcase := decode_cases h items
  rw [hd] at hcase
  cases hcase with
  | instr op hop hu hl =>
    refine ⟨hl, ?_, rfl⟩
    rw [decode_of_full hop hu (by rw [List.length_take_of_le hl])]
    simp [List.take_take]

end Sys2Proof

namespace Sys2Proof.Machine

/-! A turn at the channels (R77, R237, R238) -/

section Turn
variable {s : State} {p : Pending}

/-- What is gathered is the head of the payload: the items taken, then those in the channel. -/
theorem gathered_eq_take (hp : p.items.length ≤ payloadCount p.header) (s : State) :
    gathered p s = (p.items ++ s.payloadIn).take (payloadCount p.header) := by
  rw [gathered, List.take_append, List.take_of_length_le hp]

theorem afterGathering_payloadIn_eq_drop (hp : p.items.length ≤ payloadCount p.header) (s : State) :
    (s.afterGathering p).payloadIn = (p.items ++ s.payloadIn).drop (payloadCount p.header) := by
  rw [State.afterGathering_payloadIn, List.drop_append, List.drop_eq_nil_of_le hp, List.nil_append]

theorem acquire_of_decode {i : Instr} {rest : List Word} (hp : p.items.length ≤ payloadCount p.header)
    (hd : decode p.header (p.items ++ s.payloadIn) = .instr i rest) :
    acquire p s = .run i { s with inProgress := none, payloadIn := rest } := by
  obtain ⟨hl, htake, hdrop⟩ := decode_take_of_instr hd
  have hfull : ¬(gathered p s).length < payloadCount p.header := by
    rw [gathered_eq_take hp, List.length_take_of_le hl]
    exact Nat.lt_irrefl _
  have hrest : s.afterGathering p = { s with inProgress := none, payloadIn := rest } := by
    rw [← hdrop, ← afterGathering_payloadIn_eq_drop hp]
    rfl
  rw [acquire, if_neg hfull, gathered_eq_take hp, htake, hrest]

theorem acquire_of_short_eq (h : p.items.length + s.payloadIn.length < payloadCount p.header) :
    acquire p s = .hold { s with
      payloadIn := [], inProgress := some { header := p.header, items := p.items ++ s.payloadIn } } := by
  have hlen : (p.items ++ s.payloadIn).length ≤ payloadCount p.header := by
    rw [List.length_append]
    omega
  have hp : p.items.length ≤ payloadCount p.header := by omega
  have hchannel := afterGathering_payloadIn_eq_drop hp s
  rw [List.drop_eq_nil_of_le hlen] at hchannel
  rw [acquire_of_short h, gathered_eq_take hp, List.take_of_length_le hlen, ← hchannel]
  rfl

theorem acquire_of_nonZeroUnused (hd : ∀ items, decode p.header items = .reject .nonZeroUnused)
    (h : payloadCount p.header ≤ p.items.length + s.payloadIn.length) :
    acquire p s = .reject (s.afterGathering p) := by
  have hfull : ¬(gathered p s).length < payloadCount p.header := by
    rw [length_gathered_lt_iff]
    exact Nat.not_lt.mpr h
  rw [acquire, if_neg hfull, hd]

theorem fetch_of_no_header (hr : s.resetIn = false) (hp : s.inProgress = none) (hc : s.commandIn = []) :
    fetch s = .hold s := by
  cases hw : s.outputsTaken <;> simp [fetch, hr, hp, hw, hc]

theorem step_of_resetIn (hr : s.resetIn = true) : step s = .next s.afterReset :=
  step_of_hold (by simp [fetch, hr])

end Turn

theorem valid_of_mem_of_cleared {s : State} (h : s.cleared = true) {r : VReg} (hr : r ∈ s.regs) :
    r.valid = false := by
  simp only [State.cleared, Bool.and_eq_true, List.all_eq_true] at h
  obtain ⟨⟨⟨⟨hregs, -⟩, -⟩, -⟩, -⟩ := h
  simpa using hregs r hr

/-! The statements -/

/-- Settles O5: the header's payload is what the decoder reads of the channel (`acquire_of_decode`). -/
theorem stepRunsTheDecodedCommand : Obligations.StepRunsTheDecodedCommand := by
  intro s h hs i rest hready hc hd
  have hacquire := acquire_of_decode (p := ⟨h, []⟩) (s := { s with commandIn := hs }) (Nat.zero_le _) hd
  have ⟨_, hp, _⟩ := hready
  rw [step_of_run ((fetch_of_ready hready hc).trans hacquire), hp]

/-- Settles O6: as for a fresh header, with the items taken before in front of the channel's. -/
theorem stepResumesTheCommandInProgress : Obligations.StepResumesTheCommandInProgress := by
  intro s p i rest hr hp hlt hd
  exact step_of_run ((fetch_of_inProgress hr hp).trans (acquire_of_decode (Nat.le_of_lt hlt) hd))

/-- Settles O7: a short payload is gathered whole, for a fresh header and for a command in progress
(`acquire_of_short_eq`). -/
theorem shortPayloadWaitsWithoutResponse : Obligations.ShortPayloadWaitsWithoutResponse := by
  refine ⟨fun s h hs hready hc hlt => ?fresh, fun s p hr hp hlt => ?inProgress⟩
  case fresh =>
    have hshort : ([] : List Word).length + s.payloadIn.length < payloadCount h := by simpa using hlt
    exact step_of_hold ((fetch_of_ready hready hc).trans
      (acquire_of_short_eq (p := ⟨h, []⟩) (s := { s with commandIn := hs }) hshort))
  case inProgress => exact step_of_hold ((fetch_of_inProgress hr hp).trans (acquire_of_short_eq hlt))

/-- Settles O9: `fetch` holds the state as it is, with outputs waiting and with no header there. -/
theorem noHeaderBeforeOutputsAreTaken : Obligations.NoHeaderBeforeOutputsAreTaken := by
  intro s hr hp hwait
  by_cases hw : s.outputsTaken = true
  · obtain ⟨hresp, hpay⟩ := (State.outputsTaken_iff s).mp hw
    have hc : s.commandIn = [] := (hwait.resolve_left (not_not.mpr hresp)).resolve_left (not_not.mpr hpay)
    exact step_of_hold (fetch_of_no_header hr hp hc)
  · exact step_of_hold (fetch_of_waiting hr hp (Bool.eq_false_iff.mpr hw))

/-- Settles O11: the header decodes to no command with any items, so the turn with its payload there ends in the
refusal. -/
theorem nonZeroUnusedFieldIsRefused : Obligations.NonZeroUnusedFieldIsRefused := by
  intro s h hs hready hc hlow hhigh hfield hlen
  obtain ⟨op, hop⟩ := Op.exists_ofCode_of_range _ hlow hhigh
  have hu : unusedZero op.uses (unpack h) = false := by
    rw [Bool.eq_false_iff, Ne, unusedZero_iff]
    simp only [(Op.ofCode_eq_some_iff _ _).mp hop, ← Op.uses_vs_iff, ← Op.uses_radix_iff, Ne, ← Op.uses_val_iff,
      ← Op.uses_arg_iff, Bool.not_eq_true] at hfield
    tauto
  have hdecode (items : List Word) := decode_of_nonZeroUnused items hop hu
  have hacquire := acquire_of_nonZeroUnused (p := ⟨h, []⟩) (s := { s with commandIn := hs }) hdecode
    (by simpa using hlen)
  have ⟨_, hp, hresp, _⟩ := hready
  rw [step_of_reject ((fetch_of_ready hready hc).trans hacquire), ← refuse_eq, refuse_eq_responseOut]
  simp [State.afterGathering, Reason.code, hp, hresp]

/-- Settles O12: a step in reset is `afterReset`. -/
theorem resetInputClearsTheMachine : Obligations.ResetInputClearsTheMachine := by
  intro s hr
  exact ⟨_, step_of_resetIn hr, List.length_mapIdx, fun r => valid_of_mem_of_cleared (cleared_afterReset s),
    rfl, rfl, rfl, rfl, rfl, hr, rfl⟩

/-- Settles O13: each field is the one `State.resetWith` writes. -/
theorem resetStateIsUnconstructed : Obligations.ResetStateIsUnconstructed := by
  refine ⟨rfl, fun p => ⟨List.length_replicate, fun r hr => ?_, rfl, rfl, rfl, rfl, rfl, rfl⟩⟩
  rw [List.eq_of_mem_replicate hr]
  rfl

/-- Settles O55: while the input is asserted no action transfers anything (`hostAct_of_resetIn`), the input clears the
machine when it acts, and after its release the machine is idle until a header comes (`fetch_of_no_header`). -/
theorem resetInputSilencesThePorts : Obligations.ResetInputSilencesThePorts := by
  refine ⟨fun a s => hostAct_of_resetIn,
    fun s hr => ⟨_, step_of_resetIn hr, cleared_afterReset s, hr⟩,
    fun s => ⟨cleared_driveReset (.inl rfl), State.driveReset_resetIn s true⟩,
    fun s t items hr ht => ?released⟩
  case released =>
    have hacts : t = { s.afterReset with resetIn := false, payloadIn := items } := by
      have hrelease : hostAct (.driveReset false) s = { s.afterReset with resetIn := false } :=
        if_pos (by simp [hr])
      rw [ht, hostActs_cons, hrelease, hostActs_sendItem rfl]
      rfl
    subst hacts
    exact ⟨rfl, fun r => valid_of_mem_of_cleared (cleared_afterReset s),
      _, step_of_hold (fetch_of_no_header rfl rfl rfl), rfl, rfl, rfl, rfl, rfl⟩

end Sys2Proof.Machine
end

section
/-!
PROOFS of the commands' frames (10_state.md section 1, 20_memory.md section 4). What a command leaves unchanged is read
off `exec_answered` and `exec_cases`; a command that reads sends an answer its receiver decides (`exec_of_reading`).
-/
namespace Sys2Proof.Machine

/-! Commands (R22, R24, R27, R28, R47) -/

section Command
variable {i : Instr} {s t : State}

/-- Beside the registers a command changes only the outputs, by its one answer (R27, R71). -/
theorem keepsRest_of_exec (he : exec i s = .next t) :
    s.KeepsRest t ∧ ∃ reply, Answers i reply ∧ t.responseOut = s.responseOut ++ [reply.response] ∧
      t.payloadOut = s.payloadOut ++ reply.chars := by
  obtain ⟨regs, reply, heq, hans⟩ := exec_answered i s
  rw [he] at heq
  cases heq
  exact ⟨⟨rfl, rfl, rfl, rfl, rfl, rfl⟩, reply, hans, rfl, rfl⟩

/-- Only TOSTRING sends characters (R75). -/
theorem payloadOut_of_exec (hi : ∀ vd radix, i ≠ .tostring vd radix) (he : exec i s = .next t) :
    t.payloadOut = s.payloadOut := by
  obtain ⟨-, reply, hans, -, hpay⟩ := keepsRest_of_exec he
  have hchars : reply.chars = [] := by
    by_contra hne
    obtain ⟨-, vd, radix, htostring⟩ := hans.of_chars_ne_nil hne
    exact hi vd radix htostring
  rw [hpay, hchars, List.append_nil]

/-- A command writes no register but its receiver (R28). -/
theorem regs_of_exec (he : exec i s = .next t) :
    t.regs = s.regs ∨ ∃ q, t.regs = s.regs.set i.receiver.toNat q := by
  have hcase := exec_cases i s
  rw [he] at hcase
  cases hcase with
  | answer => exact .inl rfl
  | constructed => exact .inr ⟨_, rfl⟩
  | written => exact .inr ⟨_, rfl⟩

theorem length_regs_of_exec (he : exec i s = .next t) : t.regs.length = s.regs.length := by
  rcases regs_of_exec he with h | ⟨q, h⟩ <;> rw [h]
  exact List.length_set

theorem getElem?_regs_of_exec (he : exec i s = .next t) {d : Nat} (hd : d ≠ i.receiver.toNat) :
    t.regs[d]? = s.regs[d]? := by
  rcases regs_of_exec he with h | ⟨q, h⟩ <;> rw [h]
  exact List.getElem?_set_ne hd.symm

/-- What becomes of a register: its `valid` and `length` stay, unless a NEW or PARSE that ends `OK` has constructed a
vector in it (R22, R24). -/
theorem register_of_exec (he : exec i s = .next t) {d : Nat} {r : VReg} (hr : s.regs[d]? = some r) :
    ∃ q, t.regs[d]? = some q ∧
      ((q.valid = r.valid ∧ q.length = r.length) ∨
        (i.constructs = true ∧ d = i.receiver.toNat ∧ q.valid = true ∧
          t.responseOut = s.responseOut ++ [⟨0x0, 0, i.receiver, 0, 0, 0, 0⟩])) := by
  by_cases hd : d = i.receiver.toNat
  · subst hd
    have hcase := exec_cases i s
    rw [he] at hcase
    cases hcase with
    | answer => exact ⟨r, hr, .inl ⟨rfl, rfl⟩⟩
    | constructed old length words hc hold =>
      exact ⟨_, State.reg?_setReg_self hold _, .inr ⟨hc, rfl, rfl, rfl⟩⟩
    | written old words result hc hold =>
      obtain rfl : old = r := Option.some.inj (hold.symm.trans hr)
      exact ⟨_, State.reg?_setReg_self hold _, .inl ⟨rfl, rfl⟩⟩
  · exact ⟨r, (getElem?_regs_of_exec he hd).trans hr, .inl ⟨rfl, rfl⟩⟩

end Command

/-! The commands that only read (R47) -/

/-- The outcome of a command that reads its receiver. -/
def readReply (reply : VReg → Reply) : Option VReg → Reply
  | none => .refused .badRegister
  | some r => if r.valid then reply r else .refused .notConstructed

theorem withReceiver_of_reads {vd : RegNum} {s : State} {body : VReg → Outcome} {reply : VReg → Reply}
    (h : ∀ r, body r = .next (s.send (reply r))) :
    withReceiver vd s body = .next (s.send (readReply reply (s.reg? vd))) := by
  rcases withReceiver_cases vd s body with ⟨hr, he⟩ | ⟨r, hr, hv, he⟩ | ⟨r, hr, hv, he⟩ <;> rw [he, hr]
  · rfl
  · simp [readReply, hv, refuse_eq]
  · simp [readReply, hv, h]

/-- GET, WEIGHT and TOSTRING send an answer that the receiver alone decides. -/
theorem exec_of_reading {i : Instr} {vd : RegNum}
    (hi : i = .weight vd ∨ (∃ index, i = .get vd index) ∨ ∃ radix, i = .tostring vd radix) :
    ∃ reply : VReg → Reply, ∀ s, exec i s = .next (s.send (readReply reply (s.reg? vd))) := by
  rcases hi with rfl | ⟨index, rfl⟩ | ⟨radix, rfl⟩
  · exact ⟨fun r => .ok (.count (weightOf r.words)), fun s => withReceiver_of_reads fun r => rfl⟩
  · refine ⟨fun r => if inRange index r then .ok (.bit (r.bit index.toNat))
      else .error .indexOutOfRange (argField index) 0, fun s => withReceiver_of_reads fun r => ?_⟩
    split <;> rfl
  · refine ⟨fun r => if radixOk radix then .ok (.text (textOf r.words radix)) else .refused .badRadix,
      fun s => withReceiver_of_reads fun r => ?_⟩
    split <;> rfl

/-! The statements -/

/-- Settles O19: the answer is decided by the receiver (`exec_of_reading`), which the command leaves as it was. -/
theorem readingCommandsChangeNoState : Obligations.ReadingCommandsChangeNoState := by
  intro i s t u vd hi ht hu
  obtain ⟨reply, hexec⟩ := exec_of_reading hi
  have hchars (h : ∀ radix, i ≠ .tostring vd radix) : t.payloadOut = s.payloadOut := by
    refine payloadOut_of_exec (fun vd' radix hi' => ?_) ht
    obtain rfl : vd' = vd := by simpa [hi'] using hi
    exact h radix hi'
  rw [hexec] at ht hu
  cases ht
  cases hu
  exact ⟨rfl, ⟨rfl, rfl, rfl, rfl, rfl, rfl⟩, _, _, rfl, rfl, rfl, rfl, fun h => by simpa using hchars h⟩

/-- Settles O22: `register_of_exec`. -/
theorem onlyConstructionWritesLengthAndValid : Obligations.OnlyConstructionWritesLengthAndValid := by
  intro i s t he d r hr
  obtain ⟨q, hq, ⟨hvalid, hlength⟩ | ⟨hc, hd, hvalid, hresp⟩⟩ := register_of_exec he hr
  · exact ⟨q, hq, fun hv => hvalid.trans hv, .inl ⟨hvalid, hlength⟩⟩
  · exact ⟨q, hq, fun _ => hvalid, .inr ⟨hc, hd, hvalid, hresp⟩⟩

/-- Settles O20: only the receiver is written (`regs_of_exec`), and its `valid` and `length` stay since the command
constructs nothing (`register_of_exec`). -/
theorem inPlaceCommandsWriteOnlyReceiverWords : Obligations.InPlaceCommandsWriteOnlyReceiverWords := by
  intro i s t vd hi he
  obtain ⟨hreceiver, hconstructs, hsilent⟩ :
      i.receiver = vd ∧ i.constructs = false ∧ ∀ vd' radix, i ≠ .tostring vd' radix := by
    rcases hi with ⟨_, _, rfl⟩ | ⟨_, rfl⟩ | rfl | ⟨_, rfl | rfl | rfl⟩ | ⟨_, rfl⟩ <;> exact ⟨rfl, rfl, nofun⟩
  obtain ⟨hrest, -⟩ := keepsRest_of_exec he
  refine ⟨hrest, payloadOut_of_exec hsilent he, length_regs_of_exec he,
    fun d hd => getElem?_regs_of_exec he (hreceiver ▸ hd), fun r hr => ?_⟩
  obtain ⟨q, hq, hkept | ⟨hc, -⟩⟩ := register_of_exec he hr
  · exact ⟨q, hq, hkept⟩
  · simp [hconstructs] at hc

/-- Settles O21: only the receiver is written (`regs_of_exec`). -/
theorem constructionsWriteOnlyTheReceiver : Obligations.ConstructionsWriteOnlyTheReceiver := by
  intro i s t vd hi he
  obtain ⟨hreceiver, hsilent⟩ : i.receiver = vd ∧ ∀ vd' radix, i ≠ .tostring vd' radix := by
    rcases hi with ⟨_, rfl⟩ | ⟨_, _, rfl⟩ <;> exact ⟨rfl, nofun⟩
  obtain ⟨hrest, -⟩ := keepsRest_of_exec he
  exact ⟨hrest, payloadOut_of_exec hsilent he, length_regs_of_exec he,
    fun d hd => getElem?_regs_of_exec he (hreceiver ▸ hd)⟩

end Sys2Proof.Machine
end

section
/-!
PROOFS on what every step and every host action keeps: the parameters and the invariant of the machine (00_scope.md
section 3, R23, R77, R230). What a step can do is said once (`step_cases`), and a cleared machine meets the invariant
whatever its registers contain (`inv_of_cleared`).
-/
namespace Sys2Proof.Machine

/-! A step (R11, R77, R230) -/

/-- The BVU, out of reset, takes its turn for the command `p`: `p` is in progress, or its header has just been
accepted, the outputs taken; `u` is the state then. -/
inductive Turn (s : State) : Pending → State → Prop
  | resumed {p : Pending} (h : s.resetIn = false) (hp : s.inProgress = some p) : Turn s p s
  | accepted {x : Header} {xs : List Header} (h : s.resetIn = false) (hp : s.inProgress = none)
      (hw : s.outputsTaken = true) (hc : s.commandIn = x :: xs) :
    Turn s { header := x, items := [] } { s with commandIn := xs }

/-- The ways a step can go. -/
inductive StepCase (s : State) : Outcome → Prop
  | inReset (h : s.resetIn = true) : StepCase s (.next s.afterReset)
  | idle (h : s.resetIn = false) : StepCase s (.next s)
  | short {p : Pending} {u : State} (hturn : Turn s p u) (hl : (gathered p u).length < payloadCount p.header) :
    StepCase s
      (.next { u.afterGathering p with inProgress := some { header := p.header, items := gathered p u } })
  | refused {p : Pending} {u : State} (hturn : Turn s p u) :
    StepCase s (.next ((u.afterGathering p).send (.refused .reservedEncoding)))
  | ran {p : Pending} {u : State} {i : Instr} (hturn : Turn s p u) : StepCase s (exec i (u.afterGathering p))

theorem stepCase_of_turn {s u : State} {p : Pending} (hturn : Turn s p u) (hf : fetch s = acquire p u) :
    StepCase s (step s) := by
  rcases acquire_cases p u with ⟨hl, ha⟩ | ⟨-, -, ha⟩ | ⟨i, -, -, -, ha⟩
  · exact step_of_hold (hf.trans ha) ▸ .short hturn hl
  · exact step_of_reject (hf.trans ha) ▸ .refused hturn
  · exact step_of_run (hf.trans ha) ▸ .ran hturn

/-- Everything a step can do. -/
theorem step_cases (s : State) : StepCase s (step s) := by
  have hcase := fetch_cases s
  generalize hf : fetch s = f at hcase
  cases hcase with
  | inReset h => exact step_of_hold hf ▸ .inReset h
  | idle h => rw [step_of_hold hf]; exact .idle h
  | resumed p h hp => exact stepCase_of_turn (.resumed h hp) hf
  | accepted x xs h hp hw hc => exact stepCase_of_turn (.accepted h hp hw hc) hf

section Turn
variable {s u : State} {p : Pending}

theorem Turn.regs_eq (h : Turn s p u) : u.regs = s.regs := by cases h <;> rfl

theorem Turn.capWords_eq (h : Turn s p u) : u.capWords = s.capWords := by cases h <;> rfl

theorem Turn.resetIn_eq_false (h : Turn s p u) : u.resetIn = false := by
  cases h with
  | resumed h => exact h
  | accepted h => exact h

end Turn

/-- No step changes the parameters (R6). -/
theorem params_of_step {s t : State} (ht : step s = .next t) :
    t.regs.length = s.regs.length ∧ t.capWords = s.capWords := by
  have hcase := step_cases s
  generalize hstep : step s = o at hcase
  rw [ht] at hstep
  cases hcase with
  | inReset => cases hstep; exact ⟨List.length_mapIdx, rfl⟩
  | idle => cases hstep; exact ⟨rfl, rfl⟩
  | short hturn => cases hstep; exact ⟨congrArg _ hturn.regs_eq, hturn.capWords_eq⟩
  | refused hturn => cases hstep; exact ⟨congrArg _ hturn.regs_eq, hturn.capWords_eq⟩
  | ran hturn =>
    obtain ⟨⟨hcap, -⟩, -⟩ := keepsRest_of_exec hstep.symm
    exact ⟨(length_regs_of_exec hstep.symm).trans (congrArg _ hturn.regs_eq), hcap.trans hturn.capWords_eq⟩

/-! The invariant (R6, R23, R77, R102, R185, R230) -/

theorem State.inv_iff (s : State) :
    s.inv = true ↔ s.legalParams = true ∧ s.regs.all VReg.sound = true ∧ s.regs.all s.fitsCapacity = true ∧
      s.portsInOrder = true ∧ s.resetInOrder = true := by
  simp only [State.inv, Bool.and_eq_true, and_assoc]

/-- A cleared machine with legal parameters meets the invariant: nothing is constructed and no output waits. -/
theorem inv_of_cleared {s : State} (hp : s.legalParams = true) (hc : s.cleared = true) : s.inv = true := by
  have hinvalid {r : VReg} (hr : r ∈ s.regs) : r.valid = false := valid_of_mem_of_cleared hc hr
  refine (State.inv_iff s).mpr ⟨hp, List.all_eq_true.mpr fun r hr => ?sound, List.all_eq_true.mpr fun r hr => ?fits,
    ?ports, by simp [State.resetInOrder, hc]⟩
  case sound => simp [VReg.sound, hinvalid hr]
  case fits => simp [State.fitsCapacity, hinvalid hr]
  case ports =>
    simp only [State.cleared, Bool.and_eq_true, Option.isNone_iff_eq_none, State.outputsTaken_iff] at hc
    obtain ⟨⟨⟨⟨-, hprogress⟩, -⟩, -⟩, hresp, -⟩ := hc
    simp [State.portsInOrder, hprogress, hresp]

/-- The parameters are legal or not by `NVEC` and `CAP_WORDS` alone (R6). -/
theorem legalParams_congr {s t : State} (h : t.regs.length = s.regs.length ∧ t.capWords = s.capWords) :
    t.legalParams = s.legalParams := by
  simp only [State.legalParams, h.1, h.2]

theorem fitsCapacity_congr {s t : State} (h : t.capWords = s.capWords) : t.fitsCapacity = s.fitsCapacity := by
  funext r
  simp only [State.fitsCapacity, State.overCapacity, h]

theorem all_fitsCapacity_congr {s t : State} (hregs : t.regs = s.regs) (hcap : t.capWords = s.capWords)
    (h : s.regs.all s.fitsCapacity = true) : t.regs.all t.fitsCapacity = true := by
  rwa [hregs, fitsCapacity_congr hcap]

theorem all_set {P : VReg → Bool} {regs : List VReg} {q : VReg} (h : regs.all P = true) (hq : P q = true) (d : Nat) :
    (regs.set d q).all P = true :=
  List.all_eq_true.mpr fun r hr => (List.mem_or_eq_of_mem_set hr).elim (List.all_eq_true.mp h r) fun e => e ▸ hq

/-- A command keeps every register at its word count and within `CAP_WORDS` (R23, R102, R185). -/
theorem registersInOrder_of_exec {i : Instr} {s t : State} (hs : s.regs.all VReg.sound = true)
    (hf : s.regs.all s.fitsCapacity = true) (he : exec i s = .next t) :
    t.regs.all VReg.sound = true ∧ t.regs.all s.fitsCapacity = true := by
  have hcase := exec_cases i s
  rw [he] at hcase
  cases hcase with
  | answer => exact ⟨hs, hf⟩
  | constructed old length words hc hold hlen hcap =>
    exact ⟨all_set hs (by simp [VReg.sound, VReg.wc, hlen]) _,
      all_set hf (by simp [State.fitsCapacity, VReg.wc, hcap]) _⟩
  | written r words result hc hr hv hlen =>
    have hfits : s.fitsCapacity { r with words := words } = true :=
      List.all_eq_true.mp hf r (List.mem_of_getElem? hr)
    exact ⟨all_set hs (by simp [VReg.sound, VReg.wc, hlen hs]) _, all_set hf hfits _⟩

/-- A turn starts with all outputs taken (R77, R238). -/
theorem Turn.responseOut_eq_nil {s u : State} {p : Pending} (h : Turn s p u) (hports : s.portsInOrder = true) :
    u.responseOut = [] ∧ u.payloadOut = [] := by
  cases h with
  | resumed _ hp =>
    simp only [State.portsInOrder, hp, Bool.and_eq_true] at hports
    obtain ⟨-, -, htaken⟩ := hports
    exact (State.outputsTaken_iff s).mp htaken
  | accepted _ _ hw => exact (State.outputsTaken_iff s).mp hw

/-- Out of reset, with at most one response waiting and no command in progress, the ports are in order. -/
theorem inv_of_answered {t : State} (hp : t.legalParams = true) (hs : t.regs.all VReg.sound = true)
    (hf : t.regs.all t.fitsCapacity = true) (hr : t.resetIn = false) (hprogress : t.inProgress = none)
    (hresp : t.responseOut.length ≤ 1) : t.inv = true :=
  (State.inv_iff t).mpr
    ⟨hp, hs, hf, by simp [State.portsInOrder, hprogress, hresp], by simp [State.resetInOrder, hr]⟩

/-- Every step keeps the invariant. -/
theorem inv_of_step {s t : State} (hinv : s.inv = true) (ht : step s = .next t) : t.inv = true := by
  obtain ⟨hparams, hsound, hfits, hports, -⟩ := (State.inv_iff s).mp hinv
  have hparams' : t.legalParams = true := (legalParams_congr (params_of_step ht)).trans hparams
  have hcase := step_cases s
  generalize hstep : step s = o at hcase
  rw [ht] at hstep
  cases hcase with
  | inReset =>
    cases hstep
    exact inv_of_cleared hparams' (cleared_afterReset s)
  | idle =>
    cases hstep
    exact hinv
  | short hturn hl =>
    cases hstep
    obtain ⟨hresp, hpay⟩ := hturn.responseOut_eq_nil hports
    refine (State.inv_iff _).mpr ⟨hparams', hturn.regs_eq ▸ hsound,
      all_fitsCapacity_congr (s := s) hturn.regs_eq hturn.capWords_eq hfits, ?_, ?_⟩
    · simp [State.portsInOrder, State.outputsTaken, hl, hresp, hpay]
    · simp [State.resetInOrder, hturn.resetIn_eq_false]
  | refused hturn =>
    cases hstep
    obtain ⟨hresp, -⟩ := hturn.responseOut_eq_nil hports
    exact inv_of_answered hparams' (hturn.regs_eq ▸ hsound)
      (all_fitsCapacity_congr (s := s) hturn.regs_eq hturn.capWords_eq hfits) hturn.resetIn_eq_false rfl
      (by simp [hresp])
  | @ran p u i hturn =>
    obtain ⟨hresp, -⟩ := hturn.responseOut_eq_nil hports
    obtain ⟨⟨hcap, hreset, hprogress, -⟩, reply, -, hresp', -⟩ := keepsRest_of_exec hstep.symm
    have hsound' : (u.afterGathering p).regs.all VReg.sound = true := hturn.regs_eq ▸ hsound
    have hfits' := all_fitsCapacity_congr (t := u.afterGathering p) hturn.regs_eq hturn.capWords_eq hfits
    obtain ⟨hs', hf'⟩ := registersInOrder_of_exec hsound' hfits' hstep.symm
    exact inv_of_answered hparams' hs' ((fitsCapacity_congr hcap) ▸ hf') (hreset.trans hturn.resetIn_eq_false)
      hprogress (by simp [hresp', hresp])

/-! Host actions (R236 to R239) -/

/-- Beside the input channels a host action other than the reset input's can only shorten the outputs. -/
theorem frame_of_hostAct {a : HostAction} (ha : ∀ asserted, a ≠ .driveReset asserted) (s : State) :
    (hostAct a s).regs = s.regs ∧ (hostAct a s).capWords = s.capWords ∧ (hostAct a s).resetIn = s.resetIn ∧
      (hostAct a s).inProgress = s.inProgress ∧ (hostAct a s).responseOut <:+ s.responseOut ∧
      (hostAct a s).payloadOut <:+ s.payloadOut := by
  by_cases hr : s.resetIn = true
  · rw [hostAct_of_resetIn hr ha]
    exact ⟨rfl, rfl, rfl, rfl, List.suffix_rfl, List.suffix_rfl⟩
  · cases a with
    | driveReset asserted => exact absurd rfl (ha asserted)
    | sendHeader x => simp [hostAct, hr]
    | sendItem x => simp [hostAct, hr]
    | takeResponse => simp [hostAct, hr, List.tail_suffix]
    | takeChar => simp [hostAct, hr, List.tail_suffix]

/-- Fewer outputs waiting are in order where more were. -/
theorem portsInOrder_of_suffix {s t : State} (hprogress : t.inProgress = s.inProgress)
    (hresp : t.responseOut <:+ s.responseOut) (hpay : t.payloadOut <:+ s.payloadOut) (h : s.portsInOrder = true) :
    t.portsInOrder = true := by
  have htaken (hs : s.outputsTaken = true) : t.outputsTaken = true := by
    obtain ⟨hr, hp⟩ := (State.outputsTaken_iff s).mp hs
    rw [hr] at hresp
    rw [hp] at hpay
    exact (State.outputsTaken_iff t).mpr ⟨List.suffix_nil.mp hresp, List.suffix_nil.mp hpay⟩
  have hlen := hresp.length_le
  simp only [State.portsInOrder, Bool.and_eq_true, decide_eq_true_eq] at h ⊢
  obtain ⟨hone, hcommand⟩ := h
  refine ⟨Nat.le_trans hlen hone, ?_⟩
  rw [hprogress]
  cases hp : s.inProgress with
  | none => rfl
  | some p =>
    simp only [hp, Bool.and_eq_true] at hcommand ⊢
    exact ⟨hcommand.1, htaken hcommand.2⟩

theorem inv_of_driveReset {s : State} (hinv : s.inv = true) (asserted : Bool) :
    (s.driveReset asserted).inv = true := by
  by_cases h : asserted = true ∨ s.resetIn = true
  · obtain ⟨hparams, -⟩ := (State.inv_iff s).mp hinv
    have hkept : (s.driveReset asserted).regs.length = s.regs.length ∧
        (s.driveReset asserted).capWords = s.capWords := by
      rw [State.driveReset, if_pos (by simpa using h)]
      exact ⟨List.length_mapIdx, rfl⟩
    exact inv_of_cleared ((legalParams_congr hkept).trans hparams) (cleared_driveReset h)
  · obtain ⟨ha, hr⟩ := not_or.mp h
    rw [Bool.not_eq_true] at ha hr
    rwa [ha, State.driveReset_of_released hr]

theorem inv_of_hostAct {s : State} (hinv : s.inv = true) (a : HostAction) : (hostAct a s).inv = true := by
  by_cases ha : ∀ asserted, a ≠ .driveReset asserted
  · by_cases hr : s.resetIn = true
    · rwa [hostAct_of_resetIn hr ha]
    · obtain ⟨hregs, hcap, hreset, hprogress, hresp, hpay⟩ := frame_of_hostAct ha s
      obtain ⟨hparams, hsound, hfits, hports, -⟩ := (State.inv_iff s).mp hinv
      exact (State.inv_iff _).mpr
        ⟨(legalParams_congr ⟨congrArg _ hregs, hcap⟩).trans hparams, hregs ▸ hsound,
          all_fitsCapacity_congr hregs hcap hfits, portsInOrder_of_suffix hprogress hresp hpay hports,
          by simp [State.resetInOrder, hreset, hr]⟩
  · obtain ⟨asserted, rfl⟩ := not_forall_not.mp ha
    exact inv_of_driveReset hinv asserted

/-! The statements -/

/-- Settles O26: a turn starts with the outputs taken and ends with one response or waiting for payload
(`inv_of_step`), and the command it runs keeps the registers in order (`registersInOrder_of_exec`). -/
theorem stepKeepsInvariant : Obligations.StepKeepsInvariant :=
  fun _ _ => inv_of_step

/-- Settles O25: the reset state is cleared. -/
theorem resetMeetsInvariant : Obligations.ResetMeetsInvariant := by
  intro p hp
  refine inv_of_cleared ?_ ?_
  · simpa [State.legalParams, State.resetWith] using hp
  · simp [State.cleared, State.resetWith, State.outputsTaken, VReg.unconstructed]

/-- Settles O27: the transfers' frame is `frame_of_hostAct`, and every action keeps the invariant
(`inv_of_hostAct`). -/
theorem hostActionsReachNoRegister : Obligations.HostActionsReachNoRegister := by
  refine fun a s => ⟨fun ha => ?transfer, ?released, fun hinv => inv_of_hostAct hinv a⟩
  case transfer =>
    obtain ⟨hregs, -, -, hprogress, hresp, hpay⟩ := frame_of_hostAct ha s
    exact ⟨hregs, hprogress, hresp, hpay⟩
  case released =>
    rintro rfl hr
    exact State.driveReset_of_released hr

/-- Settles O24: `params_of_step`. -/
theorem parametersNeverChange : Obligations.ParametersNeverChange :=
  fun _ _ => params_of_step

/-- Settles O23: each way a step can go is a next state, a command's too (`exec_answered`). -/
theorem machineNeverStops : Obligations.MachineNeverStops := by
  intro s
  have hcase := step_cases s
  generalize step s = o at hcase
  cases hcase with
  | @ran p u i =>
    obtain ⟨regs, reply, he, -⟩ := exec_answered i (u.afterGathering p)
    exact ⟨_, he⟩
  | _ => exact ⟨_, rfl⟩

end Sys2Proof.Machine
end

section
/-!
PROOFS of what cannot be observed: the contents of an unconstructed register (R34, R232), by a simulation between
states that agree, and the exact `length` behind a word count (R27), by comparing a command's outcomes on two lengths.
-/
namespace Sys2Proof.Machine

/-! States that agree (R232) -/

section Agrees
variable {s t : State}

theorem State.Agrees.send (h : s.Agrees t) (r : Reply) : (s.send r).Agrees (t.send r) :=
  { h with
    responseOut := congrArg (· ++ [r.response]) h.responseOut
    payloadOut := congrArg (· ++ r.chars) h.payloadOut }

theorem State.Agrees.setReg (h : s.Agrees t) (d : RegNum) (q : VReg) : (s.setReg d q).Agrees (t.setReg d q) :=
  { h with
    count := by simpa using h.count
    regs := by
      intro e a b ha hb
      by_cases hd : d.toNat = e
      · obtain ⟨-, rfl⟩ : _ ∧ q = a := by simpa [List.getElem?_set, hd] using ha
        obtain ⟨-, rfl⟩ : _ ∧ q = b := by simpa [List.getElem?_set, hd] using hb
        exact ⟨rfl, fun _ => rfl⟩
      · rw [State.setReg_regs, List.getElem?_set_ne hd] at ha hb
        exact h.regs e a b ha hb }

theorem State.Agrees.outputsTaken_eq (h : s.Agrees t) : s.outputsTaken = t.outputsTaken := by
  simp only [State.outputsTaken, h.responseOut, h.payloadOut]

theorem State.Agrees.overCapacity_eq (h : s.Agrees t) (n : Nat) : s.overCapacity n = t.overCapacity n := by
  simp only [State.overCapacity, h.capWords]

/-- A register number names a register in both states or in neither, and two that agree. -/
theorem State.Agrees.reg?_cases (h : s.Agrees t) (d : RegNum) :
    (s.reg? d = none ∧ t.reg? d = none) ∨ ∃ r q, s.reg? d = some r ∧ t.reg? d = some q ∧ r.Agrees q := by
  by_cases hd : d.toNat < s.regs.length
  · have hd' : d.toNat < t.regs.length := h.count ▸ hd
    exact .inr ⟨_, _, List.getElem?_eq_getElem hd, List.getElem?_eq_getElem hd',
      h.regs _ _ _ (List.getElem?_eq_getElem hd) (List.getElem?_eq_getElem hd')⟩
  · rw [State.reg?_eq_none_iff, State.reg?_eq_none_iff, ← h.count]
    exact .inl ⟨Nat.not_lt.mp hd, Nat.not_lt.mp hd⟩

theorem State.Agrees.afterReset (h : s.Agrees t) : s.afterReset.Agrees t.afterReset where
  count := by simpa using h.count
  regs := by
    intro d r q hr hq
    have hr' := valid_of_mem_of_cleared (cleared_afterReset s) (List.mem_of_getElem? hr)
    have hq' := valid_of_mem_of_cleared (cleared_afterReset t) (List.mem_of_getElem? hq)
    exact ⟨hr'.trans hq'.symm, fun hv => by simp [hr'] at hv⟩
  capWords := h.capWords
  resetIn := h.resetIn
  inProgress := rfl
  commandIn := rfl
  payloadIn := rfl
  responseOut := rfl
  payloadOut := rfl

end Agrees

/-! Commands on states that agree -/

/-- Two outcomes that are next states that agree. -/
def AgreeingOutcomes (o o' : Outcome) : Prop := ∃ u w, o = .next u ∧ o' = .next w ∧ u.Agrees w

section Simulation
variable {s t : State}

theorem State.Agrees.sendBoth (h : s.Agrees t) (r : Reply) :
    AgreeingOutcomes (.next (s.send r)) (.next (t.send r)) :=
  ⟨_, _, rfl, rfl, h.send r⟩

theorem State.Agrees.writeBoth (h : s.Agrees t) (d : RegNum) (q : VReg) (r : Reply) :
    AgreeingOutcomes (.next ((s.setReg d q).send r)) (.next ((t.setReg d q).send r)) :=
  ⟨_, _, rfl, rfl, (h.setReg d q).send r⟩

/-- Only the contents of a constructed receiver reach the command's own part (R206). -/
theorem State.Agrees.withReceiver (h : s.Agrees t) (vd : RegNum) {body body' : VReg → Outcome}
    (hbody : ∀ r, AgreeingOutcomes (body r) (body' r)) :
    AgreeingOutcomes (withReceiver vd s body) (withReceiver vd t body') := by
  rcases h.reg?_cases vd with ⟨hs, ht⟩ | ⟨r, q, hs, ht, hvalid, heq⟩
  · rw [withReceiver_of_none _ hs, withReceiver_of_none _ ht]
    exact h.sendBoth _
  · cases hv : r.valid with
    | false =>
      rw [withReceiver_of_invalid _ hs hv, withReceiver_of_invalid _ ht (hvalid ▸ hv)]
      exact h.sendBoth _
    | true =>
      obtain rfl := heq hv
      rw [withReceiver_of_valid _ hs hv, withReceiver_of_valid _ ht hv]
      exact hbody r

theorem State.Agrees.withTarget (h : s.Agrees t) (vd : RegNum) {body body' : Outcome}
    (hbody : AgreeingOutcomes body body') : AgreeingOutcomes (withTarget vd s body) (withTarget vd t body') := by
  rcases h.reg?_cases vd with ⟨hs, ht⟩ | ⟨r, q, hs, ht, -⟩
  · rw [withTarget_of_none _ hs, withTarget_of_none _ ht]
    exact h.sendBoth _
  · rwa [withTarget_of_some _ hs, withTarget_of_some _ ht]

theorem State.Agrees.withPair (h : s.Agrees t) (vd vs : RegNum) {body body' : VReg → VReg → Outcome}
    (hbody : ∀ r o, AgreeingOutcomes (body r o) (body' r o)) :
    AgreeingOutcomes (withPair vd vs s body) (withPair vd vs t body') := by
  rcases h.reg?_cases vd with ⟨hs, ht⟩ | ⟨r, q, hs, ht, hvalid, heq⟩
  · rw [withPair_of_none _ (.inl hs), withPair_of_none _ (.inl ht)]
    exact h.sendBoth _
  rcases h.reg?_cases vs with ⟨hs', ht'⟩ | ⟨o, p, hs', ht', hvalid', heq'⟩
  · rw [withPair_of_none _ (.inr hs'), withPair_of_none _ (.inr ht')]
    exact h.sendBoth _
  by_cases hv : r.valid = true ∧ o.valid = true
  · obtain ⟨hr, ho⟩ := hv
    obtain rfl := heq hr
    obtain rfl := heq' ho
    rw [withPair_of_valid _ hs hs' hr ho, withPair_of_valid _ ht ht' hr ho]
    exact hbody r o
  · have hv' : r.valid = false ∨ o.valid = false :=
      (not_and_or.mp hv).imp Bool.eq_false_iff.mpr Bool.eq_false_iff.mpr
    rw [withPair_of_invalid _ hs hs' hv', withPair_of_invalid _ ht ht' (hvalid ▸ hvalid' ▸ hv')]
    exact h.sendBoth _

theorem State.Agrees.combine (h : s.Agrees t) (op : Word → Word → Word) (vd vs : RegNum) :
    AgreeingOutcomes (combine op vd vs s) (combine op vd vs t) :=
  h.withPair vd vs fun r o => by
    split
    · exact h.writeBoth _ _ _
    · exact h.sendBoth _

/-- A command does the same on states that agree. -/
theorem State.Agrees.exec (h : s.Agrees t) (i : Instr) : AgreeingOutcomes (exec i s) (exec i t) := by
  cases i with
  | new vd length =>
    refine h.withTarget vd ?_
    rw [h.overCapacity_eq]
    split
    · exact h.sendBoth _
    · split
      · exact h.sendBoth _
      · exact h.writeBoth _ _ _
  | get vd index => exact h.withReceiver vd fun r => by split <;> exact h.sendBoth _
  | set vd index value =>
    refine h.withReceiver vd fun r => ?_
    split
    · exact h.writeBoth _ _ _
    · exact h.sendBoth _
  | setvalue vd words =>
    refine h.withReceiver vd fun r => ?_
    split
    · exact h.writeBoth _ _ _
    · exact h.sendBoth _
  | weight vd => exact h.withReceiver vd fun r => h.sendBoth _
  | not vd => exact h.withReceiver vd fun r => h.writeBoth _ _ _
  | and vd vs => exact h.combine _ vd vs
  | or vd vs => exact h.combine _ vd vs
  | xor vd vs => exact h.combine _ vd vs
  | lshift vd n =>
    refine h.withReceiver vd fun r => ?_
    split
    · exact h.sendBoth _
    · split
      · exact h.sendBoth _
      · exact h.writeBoth _ _ _
  | tostring vd radix => exact h.withReceiver vd fun r => by split <;> exact h.sendBoth _
  | parse vd text radix =>
    refine h.withTarget vd ?_
    split
    · split
      · exact h.sendBoth _
      · rw [h.overCapacity_eq]
        split
        · exact h.sendBoth _
        · exact h.writeBoth _ _ _
    · exact h.sendBoth _

/-! Steps on states that agree -/

/-- Two turns at the channels that come to the same, on states that agree. -/
inductive AgreeingTurns : Fetched → Fetched → Prop
  | hold {u w : State} (h : u.Agrees w) : AgreeingTurns (.hold u) (.hold w)
  | reject {u w : State} (h : u.Agrees w) : AgreeingTurns (.reject u) (.reject w)
  | run {u w : State} (i : Instr) (h : u.Agrees w) : AgreeingTurns (.run i u) (.run i w)

theorem State.Agrees.afterGathering (h : s.Agrees t) (p : Pending) :
    (s.afterGathering p).Agrees (t.afterGathering p) :=
  { h with
    inProgress := rfl
    payloadIn := congrArg (List.drop _) h.payloadIn }

theorem State.Agrees.acquire (h : s.Agrees t) (p : Pending) : AgreeingTurns (acquire p s) (acquire p t) := by
  have hgathered : gathered p s = gathered p t := by simp only [gathered, h.payloadIn]
  unfold Machine.acquire
  rw [hgathered]
  split
  · exact .hold { h.afterGathering p with inProgress := rfl }
  · split
    · exact .run _ (h.afterGathering p)
    · exact .reject (h.afterGathering p)

theorem State.Agrees.fetch (h : s.Agrees t) : AgreeingTurns (fetch s) (fetch t) := by
  have hcase := fetch_cases s
  generalize hf : Machine.fetch s = f at hcase
  cases hcase with
  | inReset hr =>
    have ht : Machine.fetch t = .hold t.afterReset := by simp [Machine.fetch, ← h.resetIn, hr]
    exact ht ▸ .hold h.afterReset
  | idle hr hp hw =>
    have ht : Machine.fetch t = .hold t := by
      rw [h.resetIn] at hr
      rw [h.inProgress] at hp
      rw [h.outputsTaken_eq, h.commandIn] at hw
      exact hw.elim (fetch_of_waiting hr hp) (fetch_of_no_header hr hp)
    exact ht ▸ .hold h
  | resumed p hr hp =>
    rw [fetch_of_inProgress (h.resetIn ▸ hr) (h.inProgress ▸ hp)]
    exact h.acquire p
  | accepted x xs hr hp hw hc =>
    obtain ⟨hresp, hpay⟩ := (State.outputsTaken_iff t).mp (h.outputsTaken_eq ▸ hw)
    rw [fetch_of_ready ⟨h.resetIn ▸ hr, h.inProgress ▸ hp, hresp, hpay⟩ (h.commandIn ▸ hc)]
    exact State.Agrees.acquire (s := { s with commandIn := xs }) (t := { t with commandIn := xs })
      { h with commandIn := rfl } _

theorem State.Agrees.step (h : s.Agrees t) : AgreeingOutcomes (step s) (step t) := by
  have hturns := h.fetch
  generalize hs : Machine.fetch s = f, ht : Machine.fetch t = f' at hturns
  cases hturns with
  | hold h' =>
    rw [step_of_hold hs, step_of_hold ht]
    exact ⟨_, _, rfl, rfl, h'⟩
  | reject h' =>
    rw [step_of_reject hs, step_of_reject ht]
    exact h'.sendBoth _
  | run i h' =>
    rw [step_of_run hs, step_of_run ht]
    exact h'.exec i

end Simulation

/-! A command on two lengths of as many words (R27) -/

/-- Two outcomes that are the same up to the receiver's length: the same answer, and either no register written, or
the same words in the receiver, which had `r` in the one and `r` with length `n` in the other. -/
inductive SameButLength (s : State) (vd : RegNum) (r : VReg) (n : Nat) : Outcome → Outcome → Prop
  | answer (x : Reply) :
    SameButLength s vd r n (.next (s.send x)) (.next ((s.setReg vd { r with length := n }).send x))
  | written (words : List Word) (x : Reply) :
    SameButLength s vd r n (.next ((s.setReg vd { r with words := words }).send x))
      (.next (((s.setReg vd { r with length := n }).setReg vd { r with length := n, words := words }).send x))

section Length
variable {s : State} {vd : RegNum} {r : VReg} {n : Nat}

theorem State.Holds.setReg_length (h : s.Holds vd r) (n : Nat) :
    (s.setReg vd { r with length := n }).Holds vd { r with length := n } :=
  ⟨State.reg?_setReg_self h.1 _, h.2⟩

theorem sameButLength_withReceiver (h : s.Holds vd r) {body body' : VReg → Outcome}
    (hbody : SameButLength s vd r n (body r) (body' { r with length := n })) :
    SameButLength s vd r n (withReceiver vd s body)
      (withReceiver vd (s.setReg vd { r with length := n }) body') := by
  rwa [h.withReceiver_eq, (h.setReg_length n).withReceiver_eq]

/-- Another register keeps all its fields, the receiver itself all but its length, and so its word count. -/
theorem reg?_setReg_length (h : s.Holds vd r) (hn : wordCount n = r.wc) {vs : RegNum} {o : VReg}
    (ho : s.reg? vs = some o) :
    ∃ m, (s.setReg vd { r with length := n }).reg? vs = some { o with length := m } ∧ wordCount m = o.wc := by
  by_cases hvs : vs = vd
  · subst hvs
    obtain rfl : r = o := Option.some.inj (h.1.symm.trans ho)
    exact ⟨n, State.reg?_setReg_self ho _, hn⟩
  · exact ⟨o.length, (State.reg?_setReg_of_ne s hvs _).trans ho, rfl⟩

theorem sameButLength_combine (h : s.Holds vd r) (hn : wordCount n = r.wc) (op : Word → Word → Word)
    (vs : RegNum) :
    SameButLength s vd r n (combine op vd vs s) (combine op vd vs (s.setReg vd { r with length := n })) := by
  have h' := h.setReg_length n
  cases ho : s.reg? vs with
  | none =>
    have ho' : (s.setReg vd { r with length := n }).reg? vs = none := by
      simpa [State.reg?] using ho
    rw [combine, combine, withPair_of_none _ (.inr ho), withPair_of_none _ (.inr ho')]
    exact .answer _
  | some o =>
    obtain ⟨m, ho', hm⟩ := reg?_setReg_length h hn ho
    cases hv : o.valid with
    | false =>
      rw [combine, combine, withPair_of_invalid _ h.1 ho (.inr hv), withPair_of_invalid _ h'.1 ho' (.inr hv)]
      exact .answer _
    | true =>
      have hr : VReg.wc { r with length := n } = r.wc := hn
      have ho'' : VReg.wc { o with length := m } = o.wc := hm
      rw [combine, combine, withPair_of_valid _ h.1 ho h.2 hv, withPair_of_valid _ h'.1 ho' h.2 hv, hr, ho'']
      by_cases hwc : r.wc = o.wc
      · rw [if_pos hwc, if_pos hwc]
        exact .written _ _
      · rw [if_neg hwc, if_neg hwc]
        exact .answer _

/-- The eight commands of R27 differ on the two lengths in nothing but the length. -/
theorem sameButLength_exec {i : Instr} (hc : i.constructs = false) (hget : ∀ vd index, i ≠ .get vd index)
    (hset : ∀ vd index b, i ≠ .set vd index b) (h : s.Holds i.receiver r) (hn : wordCount n = r.wc) :
    SameButLength s i.receiver r n (exec i s) (exec i (s.setReg i.receiver { r with length := n })) := by
  have hwc : VReg.wc { r with length := n } = r.wc := hn
  cases i with
  | new => cases hc
  | parse => cases hc
  | get vd index => exact absurd rfl (hget vd index)
  | set vd index b => exact absurd rfl (hset vd index b)
  | setvalue vd words =>
    refine sameButLength_withReceiver h ?_
    rw [hwc]
    split
    · exact .written _ _
    · exact .answer _
  | weight vd => exact sameButLength_withReceiver h (.answer _)
  | not vd => exact sameButLength_withReceiver h (.written _ _)
  | and vd vs => exact sameButLength_combine h hn _ vs
  | or vd vs => exact sameButLength_combine h hn _ vs
  | xor vd vs => exact sameButLength_combine h hn _ vs
  | lshift vd n =>
    refine sameButLength_withReceiver h ?_
    rw [hwc]
    split
    · exact .answer _
    · split
      · exact .answer _
      · exact .written _ _
  | tostring vd radix =>
    refine sameButLength_withReceiver h ?_
    split <;> exact .answer _

end Length

/-! The statements -/

/-- Settles O28: a step does the same on states that agree (`State.Agrees.step`), since only the contents of a
constructed register reach a command's own part. -/
theorem unspecifiedContentsAreNeverObserved : Obligations.UnspecifiedContentsAreNeverObserved := by
  intro s t u h hs
  obtain ⟨u', w, hu, hw, hagree⟩ := h.step
  rw [hs] at hu
  cases hu
  exact ⟨w, hw, hagree⟩

/-- Settles O29: with as many words the outcomes are the same up to the length (`sameButLength_exec`). -/
theorem lengthMattersOnlyThroughWordCount : Obligations.LengthMattersOnlyThroughWordCount := by
  intro i s t r n hc hget hset h hn he
  have hsame := sameButLength_exec hc hget hset h hn
  rw [he] at hsame
  generalize hu : exec i (s.setReg i.receiver { r with length := n }) = o at hsame
  cases hsame with
  | answer x => exact ⟨_, r, hu, rfl, rfl, h, h.setReg_length n⟩
  | written words x =>
    exact ⟨_, { r with words := words }, hu, rfl, rfl, h.setReg_words_send words x,
      (h.setReg_length n).setReg_words_send words x⟩

end Sys2Proof.Machine
end

section
/-!
PROOFS on a run (R236, R237, R240). What issuing one command comes to (`issue_cases`) is followed along the list of
commands: a run goes on after an answer and ends at a command left waiting.
-/
namespace Sys2Proof.Machine

section Run
variable {c : Command} {cs : List Command} {s t : State}

/-- A command in progress ends the issuing, and the run is not over. -/
theorem runCommands_of_inProgress {p : Pending} (hp : t.inProgress = some p) (cs : List Command) :
    runCommands cs t = .next { final := t, answers := [], isOver := false } := by
  have hsettled : t.settled = false := by simp [State.settled, hp]
  cases cs <;> simp [runCommands, hsettled]

theorem runCommands_cons (hs : s.settled = true) (ht : issue c s = .next t) {record : RunRecord}
    (hrun : runCommands cs t = .next record) :
    runCommands (c :: cs) s = .next { record with answers := t.answers ++ record.answers } := by
  simp only [runCommands, hs, if_true, ht, hrun]

theorem runCommands_of_short (hs : s.settled = true)
    (hlt : s.payloadIn.length + c.payload.length < payloadCount c.header) (cs : List Command) :
    ∃ record, runCommands (c :: cs) s = .next record ∧ record.isOver = false ∧ record.answers = [] ∧
      record.final.regs = s.regs ∧
      record.final.inProgress = some { header := c.header, items := s.payloadIn ++ c.payload } := by
  rcases issue_cases hs c with ⟨-, ht⟩ | ⟨hge, -⟩
  · exact ⟨_, runCommands_cons hs ht (runCommands_of_inProgress rfl cs), rfl, rfl, rfl, rfl⟩
  · exact absurd hlt (Nat.not_lt.mpr hge)

/-- One answer a command: that is what the host takes after it. -/
theorem answers_of_one_response (h : t.responseOut.length = 1) :
    t.answers = [{ responses := t.responseOut, text := t.payloadOut }] := by
  have hne : t.responseOut ≠ [] := List.ne_nil_of_length_pos (h ▸ Nat.one_pos)
  simp [State.answers, hne]

/-- Every run is recorded; it is over exactly when each command has its answer. -/
theorem runCommands_answers (cs : List Command) {s : State} (hs : s.settled = true) :
    ∃ record, runCommands cs s = .next record ∧ (record.isOver = true ↔ record.answers.length = cs.length) ∧
      ∀ a ∈ record.answers, a.responses.length = 1 := by
  induction cs generalizing s with
  | nil => exact ⟨_, rfl, by simp [hs], by simp⟩
  | cons c cs ih =>
    rcases issue_cases hs c with ⟨hlt, -⟩ | ⟨-, t, ht, hsettled, hone, -⟩
    · obtain ⟨record, hrun, hover, hanswers, -⟩ := runCommands_of_short hs hlt cs
      exact ⟨record, hrun, by simp [hover, hanswers], by simp [hanswers]⟩
    · obtain ⟨record, hrun, hover, hanswers⟩ := ih hsettled
      refine ⟨_, runCommands_cons hs ht hrun, ?_, ?_⟩ <;> rw [answers_of_one_response hone]
      · simpa using hover
      · simpa [hone] using hanswers

/-- With no payload short every command is answered. -/
theorem runCommands_over (cs : List Command) {s : State} (hs : s.settled = true)
    (hfull : ∀ c ∈ cs, payloadCount c.header ≤ c.payload.length) :
    ∃ record, runCommands cs s = .next record ∧ record.isOver = true := by
  induction cs generalizing s with
  | nil => exact ⟨_, rfl, hs⟩
  | cons c cs ih =>
    have hc := hfull c List.mem_cons_self
    rcases issue_cases hs c with ⟨hlt, -⟩ | ⟨-, t, ht, hsettled, -⟩
    · omega
    · obtain ⟨record, hrun, hover⟩ := ih hsettled fun c' hc' => hfull c' (List.mem_cons_of_mem c hc')
      exact ⟨_, runCommands_cons hs ht hrun, hover⟩

end Run

/-! The statement -/

/-- Settles O30: along the commands the run has one answer each (`runCommands_answers`) until a payload falls short
(`runCommands_of_short`). -/
theorem runAnswersEveryCommandOnce : Obligations.RunAnswersEveryCommandOnce := by
  refine ⟨fun cs s record hs hrun => ?answers, fun cs s => runCommands_over cs,
    fun c cs s hs hlt => runCommands_of_short hs hlt cs, fun c s t hs ht hge => ?channel⟩
  case answers =>
    obtain ⟨record', hrun', hanswers⟩ := runCommands_answers cs hs
    rw [hrun] at hrun'
    cases hrun'
    exact hanswers
  case channel =>
    rcases issue_cases hs c with ⟨hlt, -⟩ | ⟨-, u, hu, -, -, hpayload⟩
    · omega
    · rw [ht] at hu
      cases hu
      exact hpayload

end Sys2Proof.Machine
end

section
/-!
PROOFS on weights and on commands given twice (40_storage_indexed_access.md, 41_bitwise_algebra.md). A weight is a
count over bit indices, so setting a clear bit adds one to it and complementing all bits takes it from the capacity.
-/
namespace Sys2Proof.Machine

section Weight
variable {s : State} {vd : RegNum} {r : VReg}

theorem VReg.ones_le (r : VReg) : r.ones ≤ 32 * r.words.length :=
  List.countP_le_length.trans_eq List.length_range

/-- One more index counted: an index that was not counted before adds its occurrences. -/
theorem countP_eq_or {p : Nat → Bool} {i : Nat} (hi : p i = false) (l : List Nat) :
    l.countP (fun j => if j = i then true else p j) = l.countP p + l.count i := by
  induction l with
  | nil => rfl
  | cons j l ih =>
    rw [List.countP_cons, List.countP_cons, List.count_cons, ih]
    by_cases hj : j = i
    · simp [hj, hi, Nat.add_assoc]
    · simp [hj, Nat.add_right_comm]

/-- The weight of words is the count of the bits they have. -/
theorem VReg.HasBits.ones_eq {words : List Word} {bit : Nat → Bool} (h : r.HasBits words bit) :
    VReg.ones { r with words := words } = (List.range (32 * r.words.length)).countP bit := by
  obtain ⟨hlen, hbits⟩ := h
  rw [VReg.ones, hlen]
  exact List.countP_congr fun j hj => by rw [← hbits j (List.mem_range.mp hj)]; rfl

/-- Setting a clear logical bit raises the weight by one (R114). -/
theorem VReg.ones_setBit_true (hv : r.valid = true) (hs : r.sound = true) {i : Nat} (hi : i < r.length)
    (hclear : r.bit i = false) : VReg.ones { r with words := setBit r.words i true } = r.ones + 1 := by
  have hin : i < 32 * r.words.length := by
    have := VReg.wordIndex_lt_of_sound hv hs hi
    omega
  rw [(VReg.hasBits_setBit hv hs hi true).ones_eq, countP_eq_or hclear,
    List.count_eq_one_of_mem List.nodup_range (List.mem_range.mpr hin)]
  rfl

theorem VReg.bit_setBit_of_ne (hv : r.valid = true) (hs : r.sound = true) {i j : Nat} (hi : i < r.length)
    (hj : j < r.length) (hne : j ≠ i) (b : Bool) :
    VReg.bit { r with words := setBit r.words i b } j = r.bit j := by
  have hin : j < 32 * r.words.length := by
    have := VReg.wordIndex_lt_of_sound hv hs hj
    omega
  exact ((VReg.hasBits_setBit hv hs hi b).2 j hin).trans (if_neg hne)

/-- Words of the same number keep a register sound (R23). -/
theorem VReg.sound_of_length_eq {words : List Word} (hs : r.sound = true)
    (hlen : words.length = r.words.length) : VReg.sound { r with words := words } = true := by
  rwa [VReg.sound, hlen]

/-- Setting distinct clear logical bits one after the other raises the weight by their number (R114). -/
theorem execAll_set_ones (indices : List Nat) (h : s.Holds vd r) (hs : r.sound = true) (hnodup : indices.Nodup)
    (hclear : ∀ i ∈ indices, i < r.length ∧ r.bit i = false) :
    ∃ t q, execAll (indices.map fun i : Nat => .set vd i true) s = .next t ∧ t.Holds vd q ∧
      q.ones = r.ones + indices.length := by
  induction indices generalizing s r with
  | nil => exact ⟨s, r, rfl, h, rfl⟩
  | cons i indices ih =>
    obtain ⟨hi, hbit⟩ := hclear i List.mem_cons_self
    obtain ⟨hnotin, hnodup'⟩ := List.nodup_cons.mp hnodup
    have hsound := VReg.sound_of_length_eq hs (length_setBit r.words i true)
    have hset := h.setReg_words_send (setBit r.words i true) (.ok .nothing)
    have hstillClear : ∀ j ∈ indices,
        j < r.length ∧ VReg.bit { r with words := setBit r.words i true } j = false := by
      intro j hj
      obtain ⟨hlt, hj'⟩ := hclear j (List.mem_cons_of_mem i hj)
      have hne : j ≠ i := fun e => hnotin (e ▸ hj)
      exact ⟨hlt, (VReg.bit_setBit_of_ne h.2 hs hi hlt hne true).trans hj'⟩
    obtain ⟨t, q, hrun, hq, hones⟩ := ih hset hsound hnodup' hstillClear
    refine ⟨t, q, ?_, hq, ?_⟩
    · simp only [List.map_cons, execAll, exec_set_of_lt h hi, hrun]
    · rw [hones, VReg.ones_setBit_true h.2 hs hi hbit, List.length_cons]
      omega

theorem VReg.ones_replicate_zero (b : Bool) (n k : Nat) : VReg.ones ⟨b, n, List.replicate k 0⟩ = 0 := by
  rw [← VReg.weightOf_words, weightOf, List.map_replicate, List.sum_replicate]
  rfl

/-- The words stay as many under NOT, and each bit is 1 before or after (R141). -/
theorem VReg.ones_map_not (r : VReg) :
    VReg.ones { r with words := r.words.map fun x => ~~~x } + r.ones = 32 * r.words.length := by
  rw [r.hasBits_map_not.ones_eq, VReg.ones, Nat.add_comm]
  have hsplit := List.length_eq_countP_add_countP r.bit (l := List.range (32 * r.words.length))
  simpa using hsplit.symm

/-- Writing back the register that is there changes nothing. -/
theorem State.Holds.set_regs_self (h : s.Holds vd r) : s.regs.set vd.toNat r = s.regs := by
  obtain ⟨hlt, hget⟩ := List.getElem?_eq_some_iff.mp h.1
  rw [← hget, List.set_getElem_self]

/-- A register combined with itself: the response, and the words that `op` makes of equal words. -/
theorem combine_self {op : Word → Word → Word} (h : s.Holds vd r) {f : Word → Word} (hop : ∀ x, op x x = f x) :
    combine op vd vd s = .next { s with
      regs := s.regs.set vd.toNat { r with words := r.words.map f }
      responseOut := s.responseOut ++ [⟨0x0, 0, vd, 0, 0, 0, 0⟩] } := by
  rw [combine_of_wc_eq op h h rfl, State.setReg_send_register, List.zipWith_self]
  simp only [hop]

end Weight

/-! The statements -/

/-- Settles O37: the words are at most `CAP_WORDS`, and each counts for at most 32. -/
theorem weightFitsItsField : Obligations.WeightFitsItsField := by
  intro s vd r c hinv h hc
  obtain ⟨hparams, hsound, hfits, -⟩ := (State.inv_iff s).mp hinv
  have hwords : r.words.length = r.wc := sound_of_mem hsound h.1 h.2
  have hcap : r.wc ≤ c := by
    have hr := List.all_eq_true.mp hfits r (List.mem_of_getElem? h.1)
    simp only [State.fitsCapacity, h.2, Bool.not_true, Bool.false_or, Bool.not_eq_true'] at hr
    exact (State.overCapacity_eq_false_iff s _).mp hr c hc
  have hbound : c ≤ 2 ^ 26 := by
    simp only [State.legalParams, Params.legal, hc, Bool.and_eq_true, decide_eq_true_eq] at hparams
    exact hparams.2
  have hones : r.ones ≤ 32 * r.wc := hwords ▸ r.ones_le
  refine ⟨countField r.ones, ?_, ?_, hones, by omega, by omega⟩
  · rw [exec_weight h, State.send_of_no_chars rfl]
    rfl
  · rw [countField_of_lt (by omega), BitVec.toNat_ofNat, Nat.mod_eq_of_lt (by omega)]

/-- Settles O38: a fresh vector's words are zero, and each SET of a clear bit adds one (`execAll_set_ones`). -/
theorem weightAfterSettingDistinctBits : Obligations.WeightAfterSettingDistinctBits := by
  refine ⟨fun s t vd n hd hfits ht => ?fresh, fun s vd r indices h hs hnodup hclear => ?set⟩
  case set =>
    -- The statement's list of integers is the indices, each cast.
    rw [bind_pure_comp, List.map_eq_map, List.map_map]
    exact execAll_set_ones indices h hs hnodup hclear
  case fresh =>
    have hroom : s.overCapacity (wordCount n) = false := (State.overCapacity_eq_false_iff s _).mpr hfits
    rw [exec_new_of_nat hd, if_neg (Bool.eq_false_iff.mp hroom), construct_eq] at ht
    cases ht
    have hnew : ((s.setReg vd ⟨true, n, List.replicate (wordCount n) 0⟩).send (.ok (.register vd))).Holds vd
        ⟨true, n, List.replicate (wordCount n) 0⟩ :=
      ⟨State.reg?_setReg_self (List.getElem?_eq_getElem hd) _, rfl⟩
    rw [exec_weight hnew, VReg.ones_replicate_zero, State.send_of_no_chars rfl]
    rfl

/-- Settles O41: complementing is its own inverse on every word, and takes the weight from the capacity
(`VReg.ones_map_not`). -/
theorem notTwiceIsTheIdentity : Obligations.NotTwiceIsTheIdentity := by
  intro s t u vd r h hs ht hu
  have hq := h.setReg_words_send (r.words.map fun x => ~~~x) (.ok (.register vd))
  rw [exec_not h] at ht
  cases ht
  rw [exec_not hq] at hu
  cases hu
  refine ⟨?restored, _, hq, ?weight⟩
  case restored => simp [Function.comp_def, h.set_regs_self]
  case weight => rw [r.ones_map_not, VReg.length_words_of_sound h.2 hs]

/-- Settles O46: a word ANDed or ORed with itself is itself, and exclusive-ORed with itself zero. -/
theorem sameRegisterTwice : Obligations.SameRegisterTwice := by
  intro s d r h
  refine ⟨?and, ?or, ?xor⟩
  case and =>
    refine (combine_self h (f := id) fun x => BitVec.and_self).trans ?_
    rw [List.map_id, h.set_regs_self]
  case or =>
    refine (combine_self h (f := id) fun x => BitVec.or_self).trans ?_
    rw [List.map_id, h.set_regs_self]
  case xor =>
    refine (combine_self h (f := fun _ => 0) fun x => BitVec.xor_self).trans ?_
    rw [List.map_const']

end Sys2Proof.Machine
end

section
/-!
PROOFS on the SWAR count (R117). A word is a list of digits, the least significant first; each of the sequence's three
stages adds neighbouring digits and squares the base, so the digits' sum, at first the number of 1 bits, stays the
same; the multiplication adds up the four bytes that are left.
-/
namespace Sys2Proof.Machine

/-- Neighbouring digits added. -/
def pairSums : List Nat → List Nat
  | a :: b :: ds => (a + b) :: pairSums ds
  | ds => ds

/-- The mask of `n` pairs of `w`-bit digits: the lower digit of each pair. -/
def pairMask (w : Nat) : Nat → Nat
  | 0 => 0
  | n + 1 => (2 ^ w - 1) + 2 ^ (w + w) * pairMask w n

/-- `n` pairs of digits, none above `m`. -/
structure Pairs (m n : Nat) (ds : List Nat) : Prop where
  length : ds.length = 2 * n
  le : ∀ d ∈ ds, d ≤ m

section Lists
variable {m n : Nat} {ds : List Nat}

theorem Pairs.eq_nil (h : Pairs m 0 ds) : ds = [] := List.eq_nil_of_length_eq_zero h.length

/-- The first pair and the others. -/
theorem Pairs.exists_cons (h : Pairs m (n + 1) ds) :
    ∃ a b es, ds = a :: b :: es ∧ a ≤ m ∧ b ≤ m ∧ Pairs m n es := by
  obtain ⟨hlen, hle⟩ := h
  match ds, hlen with
  | a :: b :: es, hlen =>
    exact ⟨a, b, es, rfl, hle a (by simp), hle b (by simp), by simp at hlen; omega,
      fun d hd => hle d (by simp [hd])⟩

theorem Pairs.sum_pairSums (h : Pairs m n ds) : (pairSums ds).sum = ds.sum := by
  induction n generalizing ds with
  | zero => rw [h.eq_nil]; rfl
  | succ n ih =>
    obtain ⟨a, b, es, rfl, -, -, hes⟩ := h.exists_cons
    simp [pairSums, ih hes, Nat.add_assoc]

theorem Pairs.length_pairSums (h : Pairs m n ds) : (pairSums ds).length = n := by
  induction n generalizing ds with
  | zero => rw [h.eq_nil]; rfl
  | succ n ih =>
    obtain ⟨a, b, es, rfl, -, -, hes⟩ := h.exists_cons
    simp [pairSums, ih hes]

theorem Pairs.pairSums_le (h : Pairs m n ds) : ∀ d ∈ pairSums ds, d ≤ m + m := by
  induction n generalizing ds with
  | zero => rw [h.eq_nil]; nofun
  | succ n ih =>
    obtain ⟨a, b, es, rfl, ha, hb, hes⟩ := h.exists_cons
    exact List.forall_mem_cons.mpr ⟨Nat.add_le_add ha hb, ih hes⟩

/-- The sums pair up again, and are at most twice as large. -/
theorem Pairs.next (h : Pairs m (2 * n) ds) : Pairs (m + m) n (pairSums ds) :=
  ⟨h.length_pairSums, h.pairSums_le⟩

end Lists

/-! Masking every second digit -/

theorem land_add_two_pow_mul {k a b : Nat} (x y : Nat) (ha : a < 2 ^ k) (hb : b < 2 ^ k) :
    (a + 2 ^ k * x) &&& (b + 2 ^ k * y) = (a &&& b) + 2 ^ k * (x &&& y) := by
  refine Nat.eq_of_testBit_eq fun j => ?_
  have hab : a &&& b < 2 ^ k := Nat.and_lt_two_pow a hb
  simp only [Nat.testBit_and, Nat.add_comm _ (2 ^ k * _), Nat.testBit_two_pow_mul_add _ ha,
    Nat.testBit_two_pow_mul_add _ hb, Nat.testBit_two_pow_mul_add _ hab]
  split <;> rfl

section Stages
variable {w m n : Nat} {ds : List Nat}

/-- Of the lowest pair the mask keeps the lower digit. -/
theorem land_pairMask_succ {a b : Nat} (ha : a < 2 ^ w) (hb : b < 2 ^ w) (y n : Nat) :
    (a + 2 ^ w * b + 2 ^ (w + w) * y) &&& pairMask w (n + 1) = a + 2 ^ (w + w) * (y &&& pairMask w n) := by
  have hpos := Nat.two_pow_pos w
  have hsq : 2 ^ (w + w) = 2 ^ w * 2 ^ w := Nat.pow_add 2 w w
  have hpair : a + 2 ^ w * b < 2 ^ (w + w) := by rw [hsq]; nlinarith
  have hmask : 2 ^ w - 1 < 2 ^ (w + w) :=
    Nat.lt_of_lt_of_le (Nat.sub_one_lt_of_lt hpos) (Nat.pow_le_pow_right Nat.two_pos (Nat.le_add_left w w))
  rw [pairMask, land_add_two_pow_mul _ _ hpair hmask, Nat.and_two_pow_sub_one_eq_mod, Nat.add_mul_mod_self_left,
    Nat.mod_eq_of_lt ha]

/-- A number by its lowest pair of digits. -/
theorem ofDigits_cons_cons (w a b : Nat) (ds : List Nat) :
    Nat.ofDigits (2 ^ w) (a :: b :: ds) = a + 2 ^ w * b + 2 ^ (w + w) * Nat.ofDigits (2 ^ w) ds := by
  simp only [Nat.ofDigits_cons, Nat.pow_add]
  ring

/-- Its higher digits, paired anew. -/
theorem ofDigits_cons_cons_div {a : Nat} (ha : a < 2 ^ w) (b : Nat) (ds : List Nat) :
    Nat.ofDigits (2 ^ w) (a :: b :: ds) / 2 ^ w =
      b + 2 ^ w * (Nat.ofDigits (2 ^ w) ds % 2 ^ w) + 2 ^ (w + w) * (Nat.ofDigits (2 ^ w) ds / 2 ^ w) := by
  have hsplit := Nat.mod_add_div (Nat.ofDigits (2 ^ w) ds) (2 ^ w)
  rw [Nat.ofDigits_cons, Nat.add_mul_div_left _ _ (Nat.two_pow_pos w), Nat.div_eq_of_lt ha, Nat.ofDigits_cons,
    Nat.zero_add, Nat.add_assoc, Nat.pow_add, Nat.mul_assoc, ← Nat.mul_add, hsplit]

/-- The two masked halves: side by side they are the number, added they are the sums. -/
theorem Pairs.land_pairMask (h : Pairs m n ds) (hm : m < 2 ^ w) :
    (Nat.ofDigits (2 ^ w) ds &&& pairMask w n) + 2 ^ w * (Nat.ofDigits (2 ^ w) ds / 2 ^ w &&& pairMask w n) =
        Nat.ofDigits (2 ^ w) ds ∧
      (Nat.ofDigits (2 ^ w) ds &&& pairMask w n) + (Nat.ofDigits (2 ^ w) ds / 2 ^ w &&& pairMask w n) =
        Nat.ofDigits (2 ^ (w + w)) (pairSums ds) := by
  induction n generalizing ds with
  | zero => rw [h.eq_nil]; simp [pairMask, pairSums]
  | succ n ih =>
    obtain ⟨a, b, es, rfl, ha, hb, hes⟩ := h.exists_cons
    have ha' : a < 2 ^ w := by omega
    have hb' : b < 2 ^ w := by omega
    obtain ⟨hapart, hsum⟩ := ih hes
    rw [ofDigits_cons_cons_div ha', ofDigits_cons_cons, land_pairMask_succ ha' hb',
      land_pairMask_succ hb' (Nat.mod_lt _ (Nat.two_pow_pos w)), pairSums, Nat.ofDigits_cons, ← hsum]
    refine ⟨?_, by ring⟩
    conv_rhs => rw [← hapart]
    ring

/-- Where a sum fits a digit, adding before masking gives the sums too. -/
theorem Pairs.add_land_pairMask (h : Pairs m n ds) (hm : m + m < 2 ^ w) :
    (Nat.ofDigits (2 ^ w) ds + Nat.ofDigits (2 ^ w) ds / 2 ^ w) &&& pairMask w n =
      Nat.ofDigits (2 ^ (w + w)) (pairSums ds) := by
  induction n generalizing ds with
  | zero => rw [h.eq_nil]; simp [pairMask, pairSums]
  | succ n ih =>
    obtain ⟨a, b, es, rfl, ha, hb, hes⟩ := h.exists_cons
    have hnext : Nat.ofDigits (2 ^ w) es % 2 ^ w ≤ m := by
      cases es with
      | nil => simp
      | cons e es =>
        rw [Nat.ofDigits_cons, Nat.add_mul_mod_self_left]
        exact (Nat.mod_le _ _).trans (hes.le e (by simp))
    have hregroup : a + 2 ^ w * b + 2 ^ (w + w) * Nat.ofDigits (2 ^ w) es +
          (b + 2 ^ w * (Nat.ofDigits (2 ^ w) es % 2 ^ w) + 2 ^ (w + w) * (Nat.ofDigits (2 ^ w) es / 2 ^ w)) =
        (a + b) + 2 ^ w * (b + Nat.ofDigits (2 ^ w) es % 2 ^ w) +
          2 ^ (w + w) * (Nat.ofDigits (2 ^ w) es + Nat.ofDigits (2 ^ w) es / 2 ^ w) := by
      ring
    rw [ofDigits_cons_cons_div (by omega), ofDigits_cons_cons, hregroup, land_pairMask_succ (by omega) (by omega),
      ih hes, pairSums, Nat.ofDigits_cons]

end Stages

/-! The sequence on a word -/

/-- The binary digits of a word, bit 0 first. -/
def bitDigits (x : Word) : List Nat := (List.range 32).map fun k => (x.getLsbD k).toNat

theorem ofDigits_map_testBit (k v : Nat) :
    Nat.ofDigits 2 ((List.range k).map fun j => (v.testBit j).toNat) = v % 2 ^ k := by
  induction k generalizing v with
  | zero => simp [Nat.mod_one]
  | succ k ih =>
    have hshift (j : Nat) : v.testBit (j + 1) = (v / 2).testBit j := Nat.testBit_succ v j
    have hlow : (v.testBit 0).toNat = v % 2 := by simpa using Nat.toNat_testBit v 0
    rw [List.range_succ_eq_map, List.map_cons, List.map_map, Nat.ofDigits_cons]
    simp only [Function.comp_def, Nat.succ_eq_add_one, hshift]
    rw [ih, hlow, Nat.pow_succ', Nat.mod_mul]

theorem ofDigits_bitDigits (x : Word) : Nat.ofDigits 2 (bitDigits x) = x.toNat :=
  (ofDigits_map_testBit 32 x.toNat).trans (Nat.mod_eq_of_lt x.isLt)

theorem pairs_bitDigits (x : Word) : Pairs 1 16 (bitDigits x) := by
  refine ⟨by simp [bitDigits], fun d hd => ?_⟩
  obtain ⟨k, -, rfl⟩ := List.mem_map.mp hd
  exact Bool.toNat_le _

theorem sum_bitDigits (x : Word) : (bitDigits x).sum = (List.range 32).countP fun k => x.getLsbD k := by
  unfold bitDigits
  induction List.range 32 with
  | nil => rfl
  | cons k ks ih =>
    rw [List.map_cons, List.sum_cons, ih, List.countP_cons, Nat.add_comm]
    cases x.getLsbD k <;> rfl

theorem toNat_land_mask (y : Word) {m : Word} {w n : Nat} (hm : m.toNat = pairMask w n) :
    (y &&& m).toNat = y.toNat &&& pairMask w n ∧ ((y >>> w) &&& m).toNat = y.toNat / 2 ^ w &&& pairMask w n := by
  simp [BitVec.toNat_and, BitVec.toNat_ushiftRight, Nat.shiftRight_eq_div_pow, hm]

section Word
variable {x : Word} {ds : List Nat}

/-- The first stage: subtracting the upper bits of the pairs leaves the sums. -/
theorem swar_pairs (h : Pairs 1 16 ds) (hx : x.toNat = Nat.ofDigits (2 ^ 1) ds) :
    (x - ((x >>> 1) &&& 0x55555555#32)).toNat = Nat.ofDigits (2 ^ (1 + 1)) (pairSums ds) := by
  obtain ⟨-, hupper⟩ := toNat_land_mask x (m := 0x55555555#32) (w := 1) (n := 16) rfl
  obtain ⟨hapart, hsum⟩ := h.land_pairMask (w := 1) (by decide)
  rw [← hx] at hapart hsum
  have hx32 := x.isLt
  rw [BitVec.toNat_sub, hupper, ← hsum]
  omega

/-- The second stage. -/
theorem swar_nibbles (h : Pairs 2 8 ds) (hx : x.toNat = Nat.ofDigits (2 ^ 2) ds) :
    ((x &&& 0x33333333#32) + ((x >>> 2) &&& 0x33333333#32)).toNat =
      Nat.ofDigits (2 ^ (2 + 2)) (pairSums ds) := by
  obtain ⟨hlower, hupper⟩ := toNat_land_mask x (m := 0x33333333#32) (w := 2) (n := 8) rfl
  obtain ⟨hapart, hsum⟩ := h.land_pairMask (w := 2) (by decide)
  rw [← hx] at hapart hsum
  have hx32 := x.isLt
  rw [BitVec.toNat_add, hlower, hupper, ← hsum]
  omega

/-- The third stage: four bytes are left. -/
theorem swar_bytes (h : Pairs 4 4 ds) (hx : x.toNat = Nat.ofDigits (2 ^ 4) ds) :
    ((x + (x >>> 4)) &&& 0x0F0F0F0F#32).toNat = Nat.ofDigits (2 ^ (4 + 4)) (pairSums ds) := by
  have hmask : (0x0F0F0F0F#32).toNat = pairMask 4 4 := rfl
  have hsmall : pairMask 4 4 % 2 ^ 32 = pairMask 4 4 := rfl
  have hroom : Nat.ofDigits (2 ^ (4 + 4)) (pairSums ds) < (2 ^ (4 + 4)) ^ (pairSums ds).length :=
    Nat.ofDigits_lt_base_pow_length (by decide) fun d hd => (h.pairSums_le d hd).trans_lt (by decide)
  rw [h.length_pairSums] at hroom
  rw [BitVec.toNat_and, BitVec.toNat_add, BitVec.toNat_ushiftRight, Nat.shiftRight_eq_div_pow, hmask, ← hsmall,
    ← Nat.and_mod_two_pow, hx, h.add_land_pairMask (by decide)]
  exact Nat.mod_eq_of_lt hroom

/-- The multiplication adds the bytes up in the top byte. -/
theorem swar_sum (hlen : ds.length = 4) (hle : ∀ d ∈ ds, d ≤ 8) (hx : x.toNat = Nat.ofDigits (2 ^ 8) ds) :
    ((x * 0x01010101#32) >>> 24).toNat = ds.sum := by
  match ds, hlen with
  | [a, b, c, d], _ =>
    simp only [List.forall_mem_cons] at hle
    obtain ⟨ha, hb, hc, hd, -⟩ := hle
    have hproduct : x.toNat * 0x01010101 =
        a + 2 ^ 8 * (a + b) + 2 ^ 16 * (a + b + c) + 2 ^ 24 * (a + b + c + d) +
          2 ^ 32 * (b + c + d + 2 ^ 8 * (c + d) + 2 ^ 16 * d) := by
      rw [hx]
      simp only [Nat.ofDigits_cons, Nat.ofDigits_nil]
      ring
    have hmul : (x * 0x01010101#32).toNat =
        a + 2 ^ 8 * (a + b) + 2 ^ 16 * (a + b + c) + 2 ^ 24 * (a + b + c + d) := by
      rw [BitVec.toNat_mul, BitVec.toNat_ofNat, hproduct, Nat.add_mul_mod_self_left, Nat.mod_eq_of_lt (by omega)]
    rw [BitVec.toNat_ushiftRight, Nat.shiftRight_eq_div_pow, hmul, Nat.add_mul_div_left _ _ (by decide),
      Nat.div_eq_of_lt (by omega)]
    simp only [List.sum_cons, List.sum_nil]
    omega

end Word

/-! The statement -/

/-- Settles O39: the digits' sum is the number of 1 bits of the word and stays the same through the stages. -/
theorem swarSequenceIsPopcount : Obligations.SwarSequenceIsPopcount := by
  intro x
  have hbits := pairs_bitDigits x
  have hpairs := hbits.next (n := 8)
  have hnibbles := hpairs.next (n := 4)
  have hx := swar_nibbles hpairs (swar_pairs hbits (ofDigits_bitDigits x).symm)
  calc swarPopcount x
      = (pairSums (pairSums (pairSums (bitDigits x)))).sum :=
        swar_sum hnibbles.length_pairSums hnibbles.pairSums_le (swar_bytes hnibbles hx)
    _ = (bitDigits x).sum := by rw [hnibbles.sum_pairSums, hpairs.sum_pairSums, hbits.sum_pairSums]
    _ = (List.range 32).countP fun k => x.getLsbD k := sum_bitDigits x

end Sys2Proof.Machine
end

section
/-!
PROOFS on texts as a whole (43_text_serialization.md): their length, what PARSE builds from tokens that spell numbers,
and the round trip. The tokens TOSTRING writes, widened to payload items, are tokens that spell the words.
-/
namespace Sys2Proof.Machine

/-! The length of a text (R171, R174, R175) -/

/-- Tokens of one width, joined: their characters and the spaces between. -/
theorem length_joinTokens {w : Nat} (toks : List (List Byte)) (hw : ∀ tok ∈ toks, tok.length = w) :
    (joinTokens toks).length = toks.length * w + (toks.length - 1) := by
  induction toks using joinTokens.induct with
  | case1 => simp [joinTokens]
  | case2 tok => simpa [joinTokens] using hw tok
  | case3 tok tok' rest ih =>
    obtain ⟨htok, hrest⟩ := List.forall_mem_cons.mp hw
    rw [joinTokens, List.length_append, List.length_cons, ih hrest, htok]
    simp only [List.length_cons, Nat.add_mul, Nat.one_mul]
    omega

theorem length_textOf (words : List Word) (r : Nat) :
    (textOf words r).length = words.length * padWidth r + (words.length - 1) := by
  have hwidth : ∀ tok ∈ words.reverse.map fun x => token x r, tok.length = padWidth r :=
    List.forall_mem_map.mpr fun x _ => length_token x r
  simpa [textOf] using length_joinTokens _ hwidth

/-! PARSE of spelled tokens (R180 to R184) -/

/-- The token is not empty and spells the word (R182). -/
def SpellsWord (r : Nat) (tok : List Word) (x : Word) : Prop := tok ≠ [] ∧ Spells r (tok.map (·.toNat)) x.toNat

theorem tokenWords_of_spells {r : Nat} (hr : r ≤ 36) {toks : List (List Word)} {xs : List Word}
    (h : List.Forall₂ (SpellsWord r) toks xs) : tokenWords r toks = some xs := by
  induction h with
  | nil => rfl
  | cons htok _ ih => rw [tokenWords, (tokenWord_eq_some_iff hr _ _).mpr htok, ih]

/-- Spelled tokens are what the text they are joined to is cut into. -/
theorem tokensOf_of_spells {r : Nat} (hr : r ≤ 36) {toks : List (List Word)} {xs : List Word}
    (h : List.Forall₂ (SpellsWord r) toks xs) : tokensOf (List.intercalate [0x20#32] toks) = toks := by
  have hspelled (tok : List Word) (htok : tok ∈ toks) : tok ≠ [] ∧ 0x20#32 ∉ tok := by
    induction h with
    | nil => cases htok
    | cons hfirst _ ih =>
      rcases List.mem_cons.mp htok with rfl | hrest
      · exact ⟨hfirst.1, space_notMem_of_spells hr hfirst.2⟩
      · exact ih hrest
  refine tokensOf_intercalate (fun hempty => ?_) fun tok htok => (hspelled tok htok).2
  exact (hspelled [] (by simp [hempty])).1 rfl

theorem exec_parse_of_spells {s : State} {vd : RegNum} {radix : Nat} {toks : List (List Word)} {xs : List Word}
    (hd : vd.toNat < s.regs.length) (hr : 2 ≤ radix) (hr' : radix ≤ 36)
    (hcap : ∀ c, s.capWords = some c → xs.length ≤ c) (h : List.Forall₂ (SpellsWord radix) toks xs) :
    exec (.parse vd (List.intercalate [0x20#32] toks) radix) s = .next { s with
      regs := s.regs.set vd.toNat { valid := true, length := 32 * xs.length, words := xs.reverse }
      responseOut := s.responseOut ++ [⟨0x0, 0, vd, 0, 0, 0, 0⟩] } := by
  have hroom : ¬ s.overCapacity xs.length = true :=
    Bool.eq_false_iff.mp ((State.overCapacity_eq_false_iff s _).mpr hcap)
  refine (withTarget_of_lt hd _).trans ((if_pos (radixOk_eq_true hr hr')).trans ?_)
  rw [tokensOf_of_spells hr' h, tokenWords_of_spells hr' h]
  exact (if_neg hroom).trans (by rw [construct_eq, State.setReg_send_register])

/-! The text TOSTRING wrote as payload items (R67, R75) -/

/-- The characters of a text as payload items. -/
def itemsOfText (text : List Byte) : List Word := text.map fun c => c.setWidth 32

theorem map_toNat_itemsOfText (text : List Byte) : (itemsOfText text).map (·.toNat) = text.map (·.toNat) := by
  rw [itemsOfText, List.map_map]
  refine List.map_congr_left fun c _ => ?_
  have := c.isLt
  simp only [Function.comp_apply, BitVec.toNat_setWidth]
  omega

theorem itemsOfText_joinTokens (toks : List (List Byte)) :
    itemsOfText (joinTokens toks) = List.intercalate [0x20#32] (toks.map itemsOfText) := by
  induction toks using joinTokens.induct with
  | case1 => rfl
  | case2 tok => simp [joinTokens]
  | case3 tok tok' rest ih =>
    have hspace : (BitVec.ofNat 8 spaceCode).setWidth 32 = 0x20#32 := rfl
    have hsplit : itemsOfText (joinTokens (tok :: tok' :: rest)) =
        itemsOfText tok ++ 0x20#32 :: itemsOfText (joinTokens (tok' :: rest)) := by
      simp [joinTokens, itemsOfText, hspace]
    rw [hsplit, ih]
    simp [List.intercalate_cons_cons]

theorem two_pow_le_pow_padWidth {r : Nat} (hr : 2 ≤ r) : 2 ^ 32 ≤ r ^ padWidth r := by
  unfold padWidth
  cases hfind : (List.range 33).find? fun w => decide (2 ^ 32 ≤ r ^ w) with
  | none => exact Nat.pow_le_pow_left hr 32
  | some w => simpa using List.find?_some hfind

/-- A token's characters as payload items spell its word. -/
theorem spellsWord_token {r : Nat} (hr : 2 ≤ r) (hr' : r ≤ 36) (x : Word) :
    SpellsWord r (itemsOfText (token x r)) x := by
  have hroom := two_pow_le_pow_padWidth hr
  refine ⟨fun hempty => ?_, by rw [map_toNat_itemsOfText]; exact spells_token hr hr' hroom x⟩
  have hwidth : padWidth r = 0 := by simpa [itemsOfText] using congrArg List.length hempty
  simp [hwidth] at hroom

/-! The statements -/

/-- Settles O51: the tokens are all of the pad width (`length_textOf`). -/
theorem textLengthIsFixed : Obligations.TextLengthIsFixed := by
  intro s t vd r radix w text h hr hr' hw he htext
  rw [exec_tostring h hr hr'] at he
  cases he
  obtain rfl := List.append_cancel_left htext
  rw [← padWidth_eq_of_isPadWidth hr hw]
  exact length_textOf r.words radix

/-- Settles O52: the text is cut into the tokens again and each is the word it spells (`exec_parse_of_spells`). -/
theorem parseBuildsTheSpelledWords : Obligations.ParseBuildsTheSpelledWords := by
  refine ⟨fun vd x text rest hlt => ?encoding, fun s vd radix toks xs hd hr hr' hcap hlen hspells => ?built⟩
  case encoding => exact decode_pack_of_payload (op := .parse) rest rfl rfl rfl (by simpa using hlt)
  case built =>
    refine exec_parse_of_spells hd hr hr' (hlen ▸ hcap) (List.forall₂_iff_get.mpr ⟨hlen, fun k htok hx => ?_⟩)
    exact hspells k _ _ (List.getElem?_eq_getElem htok) (List.getElem?_eq_getElem hx)

/-- Settles O54: the tokens of the text spell the words, the most significant first (`spellsWord_token`). -/
theorem parseUndoesTostring : Obligations.ParseUndoesTostring := by
  intro s t va vb r radix text h hs hcap hvb hr hr' he htext
  rw [exec_tostring h hr hr'] at he
  cases he
  obtain rfl := List.append_cancel_left htext
  have hlen : r.words.reverse.length = r.wc := by rw [List.length_reverse, VReg.length_words_of_sound h.2 hs]
  have hspells : List.Forall₂ (SpellsWord radix)
      ((r.words.reverse.map fun x => token x radix).map itemsOfText) r.words.reverse := by
    rw [List.map_map, List.forall₂_map_left_iff, List.forall₂_same]
    exact fun x _ => spellsWord_token hr hr' x
  have hparse := exec_parse_of_spells (s := s.send (.ok (.text (textOf r.words radix)))) hvb hr hr'
    (hlen ▸ hcap) hspells
  rw [← itemsOfText_joinTokens, hlen, List.reverse_reverse] at hparse
  exact hparse

end Sys2Proof.Machine
end
